-- ==== Sys2Proof/Word.lean ====
section
/-!
DEFINITION. The word types of the TGX decoder CORE (spec/00_scope.md R6, R8, R9): bytes, packed colors,
32-bit registers and pixels.
-/

namespace Sys2Proof

/-- One byte (R9). -/
abbrev Byte := BitVec 8

/-- A packed 16-bit color, or a 16-bit header field (R6, R93). -/
abbrev Color := BitVec 16

/-- A 32-bit register (R6). -/
abbrev Word := BitVec 32

/-- A pixel `(b, g, r)`: three bytes, in the storage order blue, green, red (R9, R28). -/
structure Pixel where
  b : Byte
  g : Byte
  r : Byte
deriving DecidableEq, Repr, Inhabited

/-- The pixel `BLACK = (0, 0, 0)` (R9). -/
def Pixel.black : Pixel := ⟨0, 0, 0⟩

end Sys2Proof
end

