-- ==== Sys2Proof/Config.lean ====
section
/-!
DEFINITION. What a build fixes and what the spec leaves free. The opaque constants have no body: no proof can
see their value, so a theorem holds whatever they are.
-/

namespace Sys2Proof.Config

/-- `FB_CAPACITY - 1`. The parameter is OPEN in spec/00_scope.md R6 (D10), a natural number >= 1 (log 1). -/
opaque fbCapacityLessOne : Nat

/-- `FB_CAPACITY`, the pixel entries the pixel store of this build holds: any number >= 1 (R6, R28; log 1). -/
def fbCapacity : Nat := fbCapacityLessOne + 1

/-- The unspecified contents of the pixel store (R28, R40, D34): the free value of entry `index` in the span
numbered `epoch`, which begins at a reset or at a start command (log 2). -/
opaque fbUnspecified (epoch index : Nat) : Pixel

/-- What a byte of the input buffer reads as that no one has loaded. DESIGN CHOICE, log 3. -/
def unloadedByte : Byte := 0

/-- The input buffer holds at most `2^32 - 1` bytes (R6 `ADDR_W`, D25): its offsets are those below this. -/
def inputSpace : Nat := 0xFFFFFFFF

/-- The longest output the 32-bit file-size field can state (R163, D9). -/
def outputLimit : Nat := 0xFFFFFFFF

end Sys2Proof.Config
end

