-- ==== Sys2Proof/Syntax.lean ====
section
/-!
DEFINITION. The opcodes of the TGX stream, one constructor for each row of spec/opcode_table.json
(spec/30_encoding.md R94, R96). An opcode is its control byte together with the color operands it
consumes (spec/00_scope.md R12).
-/

namespace Sys2Proof

/-- One opcode. `cnt` is the field `CNT`, bits 4:0 of the control byte (R91); the run count is `cnt + 1` (R92). -/
inductive Instr where
  /-- `LIT n, c_0, ..., c_(n-1)`, tag 000 (R170). -/
  | lit (cnt : BitVec 5) (colors : List Color)
  /-- `BLACK n`, tag 001 (R175). -/
  | black (cnt : BitVec 5)
  /-- `REP n, c`, tag 010 (R180). -/
  | rep (cnt : BitVec 5) (color : Color)
  /-- `NL` and `NL.k`, tag 100 (R185); the field is decoded and not used (R98). -/
  | nl (cnt : BitVec 5)
  /-- Illegal control bytes 0x60-0x7F, tag 011 (R190). -/
  | illegal011 (cnt : BitVec 5)
  /-- Illegal control bytes 0xA0-0xBF, tag 101 (R190). -/
  | illegal101 (cnt : BitVec 5)
  /-- Illegal control bytes 0xC0-0xDF, tag 110 (R190). -/
  | illegal110 (cnt : BitVec 5)
  /-- Illegal control bytes 0xE0-0xFF, tag 111 (R190). -/
  | illegal111 (cnt : BitVec 5)
deriving DecidableEq, Repr

end Sys2Proof
end

