-- ==== Sys2Proof/Machine/State.lean ====
section
/-!
DEFINITION. The state of the TGX decoder CORE (spec/10_state.md), of the host that faces it (R20), the reasons a
step can stop, and the state after reset (R40).
-/

namespace Sys2Proof.Machine

/-- `PHASE` (R22). The register's values 6 and 7 are never held (R22, U18; log 17). -/
inductive Phase where
  /-- 0: after reset, nothing started -/
  | idle
  /-- 1: started, the header is parsed by the next step -/
  | header
  /-- 2: each step executes one opcode, or the terminal check -/
  | decode
  /-- 3: each step emits one output byte -/
  | emit
  /-- 4: the whole output has been emitted -/
  | done
  /-- 5: the run ended with the error in `ERR_CODE` -/
  | fault
deriving DecidableEq, Repr

/-- `ERR_CODE` (R31, R230). The register's values 9..15 are never held (R230, U18; log 17). -/
inductive ErrCode where
  /-- 0: no fault since the start command or reset -/
  | none
  /-- 1: the output sink refused a byte -/
  | ioError
  /-- 2: `IN_LEN < 8` -/
  | truncatedHeader
  /-- 3: the color bytes of a `LIT` or `REP` pass the end of the input -/
  | truncatedOpcode
  /-- 4: control-byte tag 011, 101, 110 or 111 -/
  | unrecognizedOpcode
  /-- 5: input exhausted with `PIX_COUNT < W * H` -/
  | incompleteFrame
  /-- 6: a run with `CURSOR + n > W` -/
  | rowOverrun
  /-- 7: a run or newline that would append past `W * H` pixels -/
  | frameOverflow
  /-- 8: header dimensions the block cannot hold or serialize -/
  | invalidDimensions
deriving DecidableEq, Repr

/-- `UNPACK_MODE` (R29): 0 `COMPAT`, 1 `RGB555`. -/
inductive UnpackMode where
  | compat
  | rgb555
deriving DecidableEq, Repr

/-- The two answers of the output sink to an offered byte (R70). That it does not answer yet is no move. -/
inductive SinkAnswer where
  | accept
  | refuse
deriving DecidableEq, Repr

/-- One move of the host (R20, R272), between two block steps (R161). -/
inductive HostMove where
  /-- the host does nothing: the block takes its step, if one is enabled -/
  | idle
  /-- write `v` to register number `reg` (R37); a write of 1 to `CTRL.START` is the start command (R160) -/
  | write (reg : Nat) (v : Word)
  /-- read register number `reg` (R37, R39) -/
  | read (reg : Nat)
  /-- place a byte in the input buffer (R262 step 2) -/
  | load (offset : Word) (b : Byte)
  /-- the sink answers the byte the block offers (R70) -/
  | answer (a : SinkAnswer)
  /-- assert reset (R260) -/
  | reset
deriving DecidableEq, Repr

/-- The bytes of a memory, listed by address in one canonical form (Machine/Memory.lean). -/
abbrev Memory := List Host.Cell

/-- The pixel store, listed by index in one canonical form (Machine/Memory.lean). -/
abbrev PixelStore := List (Nat × Pixel)

/-- The block's registers and memories, the host's two buffers, and what the host does next. -/
structure State where
  /-- `PHASE` (R22) -/
  phase : Phase
  /-- `RP`, the read cursor (R24) -/
  rp : Word
  /-- `W`, the frame width in pixels (R25) -/
  w : Word
  /-- `H`, the frame height in pixels (R25) -/
  h : Word
  /-- `CURSOR`, the column position in the current row (R26) -/
  cursor : Word
  /-- `PIX_COUNT`, the pixels appended since the start command (R27) -/
  pixCount : Word
  /-- `FB`, the pixel store (R28): the entries that have been written -/
  fb : PixelStore
  /-- `UNPACK_MODE` (R29) -/
  unpackMode : UnpackMode
  /-- `IN_LEN`, the length in bytes of the input buffer (R30) -/
  inLen : Word
  /-- `ERR_CODE` (R31) -/
  errCode : ErrCode
  /-- `ERR_POS` (R31) -/
  errPos : Word
  /-- `OUT_LEN`, the total length in bytes of the output (R32) -/
  outLen : Word
  /-- `OUT_POS`, the output bytes the sink has accepted (R32) -/
  outPos : Word
  /-- `FB_CAPACITY`, the entries the pixel store holds (R6, R28): a parameter, changed by no step (log 1) -/
  fbCapacity : Nat
  /-- the input buffer (R60), the host's (log 4) -/
  input : Memory
  /-- the bytes the output sink has accepted, in order, over all runs (R60, R70; log 4, log 15) -/
  out : List Byte
  /-- the model's own: the host's moves still to come, the first one first (log 5) -/
  host : List HostMove
  /-- the model's own: what the host's last register read returned (R39; log 16) -/
  readData : Word
  /-- the model's own: how many resets and start commands the pixel store has seen (D34; log 2) -/
  fbEpoch : Nat
deriving DecidableEq, Repr

/-- Why the machine stops. Every fault of the SPEC (R230) is taken instead, as a next state in PHASE FAULT; these
stand for accesses to what the spec says does not exist, and no run from reset reaches the first two. -/
inductive Fault where
  /-- Raised by an append to, or an emit step's read of, a pixel-store index at or above `FB_CAPACITY`: there is no
  such entry (R28). Safe: such a state breaks `W * H <= FB_CAPACITY` (R33). Log 9. -/
  | noPixelEntry
  /-- Raised by an emit step with `OUT_POS >= OUT_LEN`: there is no such output byte (R213, R214). Safe: such a state
  breaks `OUT_POS < OUT_LEN` (R32). Log 10. -/
  | noOutputByte
  /-- Raised by a host load at offset `2^32 - 1`: the input buffer has no such offset (R6, D25). Safe. Log 8. -/
  | noInputOffset
deriving DecidableEq, Repr

/-- Why the machine gives a move no meaning. -/
inductive Refusal where
  /-- Raised by an arm of `exec` whose instruction has no meaning yet; no arm does. Safe. -/
  | notModelled (mnemonic : String)
  /-- Raised by a host load of the input buffer while a run is busy: the model gives the host no such move
  (R270, U14). Unsafe if a real host does it. Log 7. -/
  | inputLoadWhileBusy
deriving DecidableEq, Repr

/-- The machine right after reset (R40, R260), with nothing loaded, nothing accepted and no host move to come. -/
def State.reset : State where
  phase := .idle
  rp := 0
  w := 0
  h := 0
  cursor := 0
  pixCount := 0
  fb := []
  unpackMode := .compat
  inLen := 0
  errCode := .none
  errPos := 0
  outLen := 0
  outPos := 0
  fbCapacity := Config.fbCapacity
  input := []
  out := []
  host := []
  readData := 0
  fbEpoch := 0

end Sys2Proof.Machine
end

