-- ==== Sys2Proof/Machine/Flags.lean ====
section
/-!
DEFINITION. The block has no condition flags and no opcode writes one (spec/10_state.md R34). What it has is the
codes of its named registers and the status bits computed from PHASE (R22, R29, R37, R230, R240).
-/

namespace Sys2Proof.Machine

/-- The encodings of `PHASE` (R22). -/
def phaseCode : Phase → BitVec 3
  | .idle => 0
  | .header => 1
  | .decode => 2
  | .emit => 3
  | .done => 4
  | .fault => 5

/-- The numbers of `ERR_CODE` (R230). -/
def errCodeNumber : ErrCode → BitVec 4
  | .none => 0
  | .ioError => 1
  | .truncatedHeader => 2
  | .truncatedOpcode => 3
  | .unrecognizedOpcode => 4
  | .incompleteFrame => 5
  | .rowOverrun => 6
  | .frameOverflow => 7
  | .invalidDimensions => 8

/-- The encodings of `UNPACK_MODE` (R29). -/
def unpackModeBit : UnpackMode → BitVec 1
  | .compat => 0
  | .rgb555 => 1

/-- The mode that the one written bit of `CONFIG.UNPACK_MODE` names; every value is legal (R37). -/
def unpackModeOfBit (rgb : Bool) : UnpackMode := if rgb then .rgb555 else .compat

/-- `BUSY`: PHASE is HEADER, DECODE or EMIT (R22, R37). The other phases are the quiescent ones. -/
def busy : Phase → Bool
  | .header => true
  | .decode => true
  | .emit => true
  | .idle => false
  | .done => false
  | .fault => false

/-- `DONE_OUT`: PHASE is DONE or FAULT (R37, R240). -/
def doneOut : Phase → Bool
  | .done => true
  | .fault => true
  | .idle => false
  | .header => false
  | .decode => false
  | .emit => false

/-- The register `STATUS` (R37): PHASE in bits 2:0, BUSY in bit 3, DONE_OUT in bit 4, the others 0. -/
def statusWord (p : Phase) : Word :=
  (phaseCode p).setWidth 32 ||| ((BitVec.ofBool (busy p)).setWidth 32 <<< 3) |||
    ((BitVec.ofBool (doneOut p)).setWidth 32 <<< 4)

end Sys2Proof.Machine
end

