-- ==== Sys2Proof/WellFormed.lean ====
section
/-!
DEFINITION. When an opcode term stands for an encoding: a `LIT n` carries exactly `n` colors
(spec/30_encoding.md R94, R100). Every other operand's range is its type's.
-/

namespace Sys2Proof

/-- The check of R100: `LIT n` has "exactly `n` 16-bit colors", with `n = cnt + 1` (R92). -/
def Instr.wf : Instr → Bool
  | .lit cnt colors => colors.length == cnt.toNat + 1
  | .black _ => true
  | .rep _ _ => true
  | .nl _ => true
  | .illegal011 _ => true
  | .illegal101 _ => true
  | .illegal110 _ => true
  | .illegal111 _ => true

end Sys2Proof
end

