-- ==== Sys2Proof/Decode.lean ====
section
/-!
DEFINITION. Decoding and encoding of opcodes (spec/30_encoding.md R90-R102), the little-endian helpers
(spec/20_memory.md R63, R64), and the host's question about a row of the opcode table.
-/

namespace Sys2Proof

/-! ## Fields of the control byte -/

/-- `TAG`, bits 7:5 of the control byte (R91). -/
def ctrlTag (b : Byte) : BitVec 3 := b.extractLsb' 5 3

/-- `CNT`, bits 4:0 of the control byte (R91). -/
def ctrlCnt (b : Byte) : BitVec 5 := b.extractLsb' 0 5

/-- The control byte with these two fields (R91). -/
def ctrlByte (tag : BitVec 3) (cnt : BitVec 5) : Byte := tag ++ cnt

/-- The run count `n = zext(CNT) + 1`, 1..32 (R92). -/
def runCount (cnt : BitVec 5) : Nat := cnt.toNat + 1

/-! ## Little-endian 16-bit values -/

/-- `lo | (hi << 8)` (R63, R93). -/
def le16 (lo hi : Byte) : Color := hi ++ lo

/-- The two bytes of a packed color, low byte first (R64, R100). -/
def colorBytes (c : Color) : List Byte := [c.extractLsb' 0 8, c.extractLsb' 8 8]

/-! ## Decoding -/

/-- Why a byte sequence holds no opcode. -/
inductive DecodeReject where
  /-- there is no control byte: the sequence is empty -/
  | noControlByte
  /-- the color bytes the control byte asks for are not all there (R170, R180) -/
  | truncatedOperands
deriving DecidableEq, Repr

/-- What decoding answers: the opcode and the bytes after it, or a named rejection. -/
inductive Decoded where
  | opcode (i : Instr) (rest : List Byte)
  | reject (r : DecodeReject)
deriving DecidableEq, Repr

/-- The next `n` color operands and the bytes after them (R93, R94); `none` if they are not all there. -/
def takeColors : Nat → List Byte → Option (List Color × List Byte)
  | 0, bytes => some ([], bytes)
  | n + 1, lo :: hi :: bytes =>
    match takeColors n bytes with
    | some (colors, rest) => some (le16 lo hi :: colors, rest)
    | none => none
  | _ + 1, [_] => none
  | _ + 1, [] => none

/-- Decode the opcode with control byte `ctrl`, whose operands are the first of `bytes` (R94, R96): the three
tag bits select it. `none`: its color operands are not all there. -/
def decodeOpcode (ctrl : Byte) (bytes : List Byte) : Option (Instr × List Byte) :=
  match ctrl.getLsbD 7, ctrl.getLsbD 6, ctrl.getLsbD 5 with
  | false, false, false =>
    match takeColors (runCount (ctrlCnt ctrl)) bytes with
    | some (colors, rest) => some (.lit (ctrlCnt ctrl) colors, rest)
    | none => none
  | false, false, true => some (.black (ctrlCnt ctrl), bytes)
  | false, true, false =>
    match bytes with
    | lo :: hi :: rest => some (.rep (ctrlCnt ctrl) (le16 lo hi), rest)
    | [_] => none
    | [] => none
  | false, true, true => some (.illegal011 (ctrlCnt ctrl), bytes)
  | true, false, false => some (.nl (ctrlCnt ctrl), bytes)
  | true, false, true => some (.illegal101 (ctrlCnt ctrl), bytes)
  | true, true, false => some (.illegal110 (ctrlCnt ctrl), bytes)
  | true, true, true => some (.illegal111 (ctrlCnt ctrl), bytes)

/-- Decode the opcode at the head of a byte sequence (R90): total on any bytes, rejecting by name. -/
def decode : List Byte → Decoded
  | [] => .reject .noControlByte
  | ctrl :: bytes =>
    match decodeOpcode ctrl bytes with
    | some (i, rest) => .opcode i rest
    | none => .reject .truncatedOperands

/-- Decode a whole stream of opcodes laid end to end (R90), at most `fuel` of them; `none` if a byte sequence in
it holds no opcode or bytes are left over. -/
def decodeStream : Nat → List Byte → Option (List Instr)
  | _, [] => some []
  | 0, _ :: _ => none
  | fuel + 1, ctrl :: bytes =>
    match decode (ctrl :: bytes) with
    | .opcode i rest => (decodeStream fuel rest).map (i :: ·)
    | .reject _ => none

/-! ## Encoding -/

/-- The bytes of an opcode (R94, R96, R100). -/
def encode : Instr → List Byte
  | .lit cnt colors => ctrlByte 0b000 cnt :: colors.flatMap colorBytes
  | .black cnt => [ctrlByte 0b001 cnt]
  | .rep cnt color => ctrlByte 0b010 cnt :: colorBytes color
  | .nl cnt => [ctrlByte 0b100 cnt]
  | .illegal011 cnt => [ctrlByte 0b011 cnt]
  | .illegal101 cnt => [ctrlByte 0b101 cnt]
  | .illegal110 cnt => [ctrlByte 0b110 cnt]
  | .illegal111 cnt => [ctrlByte 0b111 cnt]

/-- The length in bytes of an opcode by its format (R94): `CTRL` 1, `CTRL_C1` 3, `CTRL_CN` `1 + 2n`. -/
def opcodeLength : Instr → Nat
  | .lit cnt _ => 1 + 2 * runCount cnt
  | .black _ => 1
  | .rep _ _ => 3
  | .nl _ => 1
  | .illegal011 _ => 1
  | .illegal101 _ => 1
  | .illegal110 _ => 1
  | .illegal111 _ => 1

/-- The length in bytes of the longest opcode, `LIT 32` (R94). -/
def longestOpcode : Nat := 65

/-- The 8 header bytes of the directive `HDR w, h` (R101). -/
def encodeHeader (w h : Color) : List Byte :=
  colorBytes w ++ [0, 0] ++ colorBytes h ++ [0, 0]

/-- A source program: its header, then its opcodes end to end (R90, R101). -/
def encodeProgram (w h : Color) (program : List Instr) : List Byte :=
  encodeHeader w h ++ program.flatMap encode

/-! ## The host's question about a row of the opcode table -/

/-- The bytes `k` .. `k + count - 1` of the number `w`, byte 0 its least significant. -/
def numberBytes (w : Nat) : (k count : Nat) → List Byte
  | _, 0 => []
  | k, count + 1 => BitVec.ofNat 8 (w >>> (8 * k)) :: numberBytes w (k + 1) count

/-- The bytes, first at the lowest offset, of an instruction whose first `nbits` bits are `w` and whose bits above
them, up to the longest opcode, are 0. -/
def tableBytes (nbits w : Nat) : List Byte := numberBytes (w % 2 ^ nbits) 0 longestOpcode

/-- The opcode the decoder reads from an instruction whose bits are `w`. -/
def decodeTableWord (nbits w : Nat) : Option Instr :=
  match decode (tableBytes nbits w) with
  | .opcode i _ => some i
  | .reject _ => none

end Sys2Proof
end

