-- ==== Sys2Proof/Machine/Memory.lean ====
section
/-!
DEFINITION. Sparse storage: the input buffer and the pixel store (spec/20_memory.md R60), each a list of
(address, value) pairs with strictly rising addresses.
-/

namespace Sys2Proof.Machine

/-! ## Cells by address -/

/-- The value listed at `a`, if one is. -/
def cellsGet {α : Type} : List (Nat × α) → Nat → Option α
  | [], _ => none
  | (k, x) :: cells, a => if k = a then some x else cellsGet cells a

/-- List `v` at `a`, in place of what was listed there. -/
def cellsSet {α : Type} : List (Nat × α) → Nat → α → List (Nat × α)
  | [], a, v => [(a, v)]
  | (k, x) :: cells, a, v =>
    if a < k then (a, v) :: (k, x) :: cells
    else if a = k then (a, v) :: cells
    else (k, x) :: cellsSet cells a v

/-- List nothing at `a`. -/
def cellsErase {α : Type} : List (Nat × α) → Nat → List (Nat × α)
  | [], _ => []
  | (k, x) :: cells, a => if k = a then cellsErase cells a else (k, x) :: cellsErase cells a

/-- Addresses strictly rise. -/
def cellsRising {α : Type} : List (Nat × α) → Bool
  | [] => true
  | [_] => true
  | (k, _) :: (k', x') :: cells => decide (k < k') && cellsRising ((k', x') :: cells)

/-! ## The input buffer: bytes at offsets 0 .. 2^32 - 2 -/

/-- The byte at offset `a`; a byte no one has loaded reads as `Config.unloadedByte` (log 3). -/
def Memory.read (m : Memory) (a : Nat) : Byte := (cellsGet m a).getD Config.unloadedByte

/-- Store `v` at offset `a`, keeping the canonical form. -/
def Memory.write (m : Memory) (a : Nat) (v : Byte) : Memory :=
  if v = Config.unloadedByte then cellsErase m a else cellsSet m a v

/-- Store consecutive bytes from offset `a` on. -/
def Memory.writeSeq (m : Memory) (a : Nat) : List Byte → Memory
  | [] => m
  | b :: bytes => Memory.writeSeq (Memory.write m a b) (a + 1) bytes

/-- The canonical form: offsets strictly rise and lie in the buffer's space, and no entry equals what an unlisted
offset reads as. -/
def Memory.wf (m : Memory) : Bool :=
  cellsRising m && m.all fun c => decide (c.1 < Config.inputSpace) && decide (c.2 ≠ Config.unloadedByte)

/-! ## The pixel store: pixels at indices 0 .. FB_CAPACITY - 1 -/

/-- The canonical form of a store of `capacity` entries: indices strictly rise and exist. (An unlisted entry is
unspecified, R28: it equals no listed one.) -/
def PixelStore.wf (capacity : Nat) (fb : PixelStore) : Bool :=
  cellsRising fb && fb.all fun c => decide (c.1 < capacity)

end Sys2Proof.Machine
end

