-- ==== Sys2Proof/Machine/Operands.lean ====
section
/-!
DEFINITION. Reading the input (spec/20_memory.md R61-R63), the operand bytes of an opcode (spec/30_encoding.md R93,
R94), and the color16 unpacker (spec/40_pixel_unpack.md R120-R127).
-/

namespace Sys2Proof.Machine

/-! ## Reads of the input buffer: every caller has checked the offsets against IN_LEN (R10, R61) -/

/-- `InByte(a)` (R61). -/
def inByte (s : State) (a : Nat) : Byte := Memory.read s.input a

/-- `InLE16(a)`: little-endian (R63). -/
def inLE16 (s : State) (a : Nat) : Color := le16 (inByte s a) (inByte s (a + 1))

/-- `MemRead(a, n)` (R62). -/
def memRead (s : State) (a : Nat) : Nat → List Byte
  | 0 => []
  | n + 1 => inByte s a :: memRead s (a + 1) n

/-- The unread bytes after the control byte at RP, no more of them than the longest opcode has (R94). -/
def operandBytes (s : State) : List Byte :=
  memRead s (s.rp.toNat + 1) (min (longestOpcode - 1) (s.inLen.toNat - (s.rp.toNat + 1)))

/-! ## The color16 unpacker -/

/-- A 4-bit field shifted left by 3 into its channel: channel bits 6:3 (R122). -/
def channel4 (f : BitVec 4) : Byte := f.setWidth 8 <<< 3

/-- A 5-bit field shifted left by 3 into its channel: channel bits 7:3 (R123). -/
def channel5 (f : BitVec 5) : Byte := f.setWidth 8 <<< 3

/-- `UnpackCompat(c) = (0, c[9:6] << 3, c[14:11] << 3)` (R122): the field at offset 1 is written to red first and
overwritten, so it has no effect. -/
def unpackCompat (c : Color) : Pixel where
  b := 0
  g := channel4 (c.extractLsb' 6 4)
  r := channel4 (c.extractLsb' 11 4)

/-- `UnpackRGB555(c)`: red `c[5:1]`, green `c[10:6]`, blue `c[15:11]`, each shifted left by 3 (R123). -/
def unpackRGB555 (c : Color) : Pixel where
  b := channel5 (c.extractLsb' 11 5)
  g := channel5 (c.extractLsb' 6 5)
  r := channel5 (c.extractLsb' 1 5)

/-- `Unpack(c)` in a given `UNPACK_MODE` (R124). -/
def unpack (mode : UnpackMode) (c : Color) : Pixel :=
  match mode with
  | .compat => unpackCompat c
  | .rgb555 => unpackRGB555 c

end Sys2Proof.Machine
end

