-- ==== Sys2Proof/Machine/Ops.lean ====
section
/-!
DEFINITION. The shared operations: taking a fault (spec/60_exceptions.md R233), the framebuffer accumulator
(spec/41_framebuffer.md R140-R145), the start command (spec/42_decoder.md R160) and reset
(spec/70_reset_and_hazards.md R260), the two ways out of PHASE FAULT (R237).
-/

namespace Sys2Proof.Machine

/-! ## Faults -/

/-- `raise Fault(code, pos)` (R233): the three writes, and no other (R234). -/
def raiseFault (code : ErrCode) (pos : Word) (s : State) : State :=
  { s with errCode := code, errPos := pos, phase := .fault }

/-! ## The pixel store -/

/-- `FBCreate(w, h)` (R140). -/
def fbCreate (w h : Word) (s : State) : State :=
  { s with w := w, h := h, cursor := 0, pixCount := 0 }

/-- `FBAppend(px)` (R141). -/
def fbAppend (px : Pixel) (s : State) : State :=
  { s with fb := cellsSet s.fb s.pixCount.toNat px, pixCount := s.pixCount + 1 }

/-- `FBAppend` of each pixel in order (R11, R142). -/
def fbAppendAll : List Pixel → State → State
  | [], s => s
  | px :: pixels, s => fbAppendAll pixels (fbAppend px s)

/-- `FB[i]`: an entry at or above PIX_COUNT, or one nothing has written, is unspecified (R28, D34): a free value
(log 2). -/
def fbRead (s : State) (i : Nat) : Pixel :=
  if i < s.pixCount.toNat then (cellsGet s.fb i).getD (Config.fbUnspecified s.fbEpoch i)
  else Config.fbUnspecified s.fbEpoch i

/-- Whether the whole of a run of `n` pixels fits in the current row: `RowRoomCheck(n)` passes (R143). -/
def rowRoom (n : Nat) (s : State) : Bool := decide (s.cursor.toNat + n ≤ s.w.toNat)

/-- Whether `n` more pixels fit in the frame: `FrameRoomCheck(n)` passes (R144). -/
def frameRoom (n : Nat) (s : State) : Bool :=
  decide (s.pixCount.toNat + n ≤ s.w.toNat * s.h.toNat)

/-- Whether the pixel store has entries for `n` more pixels (R28); frames the header step accepts always do (R141). -/
def storeRoom (n : Nat) (s : State) : Bool := decide (s.pixCount.toNat + n ≤ s.fbCapacity)

/-- Move CURSOR right by `n` (R142). -/
def moveCursor (n : Nat) (s : State) : State := { s with cursor := s.cursor + BitVec.ofNat 32 n }

/-- Set CURSOR to column 0 (R145). -/
def homeCursor (s : State) : State := { s with cursor := 0 }

/-- Move RP past the `len` bytes of an executed opcode (R24). -/
def advanceRp (len : Nat) (s : State) : State := { s with rp := s.rp + BitVec.ofNat 32 len }

/-- `AppendSeq(p_0, ..., p_(n-1))` and then `RP <- RP + len`, for an opcode of `len` bytes (R142): both checks, in
order, before the first write. -/
def appendSeq (pixels : List Pixel) (len : Nat) (s : State) : Host.Outcome State Fault Refusal :=
  if rowRoom pixels.length s = false then .next (raiseFault .rowOverrun s.rp s)
  else if frameRoom pixels.length s = false then .next (raiseFault .frameOverflow s.rp s)
  else if storeRoom pixels.length s = false then .fault .noPixelEntry
  else .next (advanceRp len (moveCursor pixels.length (fbAppendAll pixels s)))

/-- `AppendRun(n, px)` and then `RP <- RP + len` (R142): the same checks, `n` copies of one pixel. -/
def appendRun (n : Nat) (px : Pixel) (len : Nat) (s : State) : Host.Outcome State Fault Refusal :=
  appendSeq (List.replicate n px) len s

/-- The columns from CURSOR to the row's end: `k = W - CURSOR` of R145. -/
def padCount (s : State) : Nat := s.w.toNat - s.cursor.toNat

/-- `PadRow()` and then `RP <- RP + len` (R145): black up to the row's end, CURSOR to 0; only the frame check. -/
def padRow (len : Nat) (s : State) : Host.Outcome State Fault Refusal :=
  if frameRoom (padCount s) s = false then .next (raiseFault .frameOverflow s.rp s)
  else if storeRoom (padCount s) s = false then .fault .noPixelEntry
  else .next (advanceRp len (homeCursor (fbAppendAll (List.replicate (padCount s) Pixel.black) s)))

/-- Whether the opcode of `len` bytes at RP lies wholly in the input (R170, R180): exact arithmetic (R7). -/
def opcodeInInput (len : Nat) (s : State) : Bool := decide (s.rp.toNat + len ≤ s.inLen.toNat)

/-! ## Start and reset -/

/-- The start command in a quiescent phase (R160, R261). The unspecified pixels are fresh ones (D34). -/
def startRun (s : State) : State :=
  { s with
    w := 0, h := 0, rp := 0, cursor := 0, pixCount := 0
    errCode := .none, errPos := 0, outPos := 0, outLen := 0
    phase := .header, fbEpoch := s.fbEpoch + 1 }

/-- Reset (R260): every register at its reset value and the pixel store unspecified; the input buffer, the bytes the
sink has accepted, the build's parameter and the host's own data stay. -/
def resetBlock (s : State) : State :=
  { State.reset with
    fbCapacity := s.fbCapacity, input := s.input, out := s.out
    host := s.host, readData := s.readData, fbEpoch := s.fbEpoch + 1 }

end Sys2Proof.Machine
end

