-- ==== Sys2Proof/Machine/Illegal.lean ====
section
/-!
DEFINITION. The illegal control bytes (spec/42_decoder.md R190, spec/30_encoding.md R97): each takes the fault
UnrecognizedOpcode, whatever its count field.
-/

namespace Sys2Proof.Machine

/-- `ILLEGAL()`: `raise Fault(UnrecognizedOpcode, RP)` (R190). -/
def unrecognized (s : State) : State := raiseFault .unrecognizedOpcode s.rp s

/-- Tag 011, bytes 0x60-0x7F (R190). -/
def execIllegal011 (_cnt : BitVec 5) (s : State) : Host.Outcome State Fault Refusal := .next (unrecognized s)

/-- Tag 101, bytes 0xA0-0xBF (R190). -/
def execIllegal101 (_cnt : BitVec 5) (s : State) : Host.Outcome State Fault Refusal := .next (unrecognized s)

/-- Tag 110, bytes 0xC0-0xDF (R190). -/
def execIllegal110 (_cnt : BitVec 5) (s : State) : Host.Outcome State Fault Refusal := .next (unrecognized s)

/-- Tag 111, bytes 0xE0-0xFF (R190). -/
def execIllegal111 (_cnt : BitVec 5) (s : State) : Host.Outcome State Fault Refusal := .next (unrecognized s)

end Sys2Proof.Machine
end

