-- ==== Sys2Proof/Machine/Rows.lean ====
section
/-!
DEFINITION. The newline: NL (spec/42_decoder.md R185).
-/

namespace Sys2Proof.Machine

/-- `NL`, `NL.k` (R185): one `PadRow`, whatever the count field (R98). -/
def execNl (_cnt : BitVec 5) (s : State) : Host.Outcome State Fault Refusal := padRow 1 s

end Sys2Proof.Machine
end

