-- ==== Sys2Proof/Machine/Runs.lean ====
section
/-!
DEFINITION. The pixel runs: LIT (spec/42_decoder.md R170), BLACK (R175), REP (R180).
-/

namespace Sys2Proof.Machine

/-- `LIT n, c_0, ..., c_(n-1)` (R170): truncation first, then the row and frame checks (R236). -/
def execLit (cnt : BitVec 5) (colors : List Color) (s : State) : Host.Outcome State Fault Refusal :=
  if opcodeInInput (1 + 2 * runCount cnt) s = false then .next (raiseFault .truncatedOpcode s.rp s)
  else appendSeq (colors.map (unpack s.unpackMode)) (1 + 2 * runCount cnt) s

/-- `BLACK n` (R175): `n` black pixels; the unpacker is not used. -/
def execBlack (cnt : BitVec 5) (s : State) : Host.Outcome State Fault Refusal :=
  appendRun (runCount cnt) Pixel.black 1 s

/-- `REP n, c` (R180): one color, unpacked once, appended `n` times. -/
def execRep (cnt : BitVec 5) (color : Color) (s : State) : Host.Outcome State Fault Refusal :=
  if opcodeInInput 3 s = false then .next (raiseFault .truncatedOpcode s.rp s)
  else appendRun (runCount cnt) (unpack s.unpackMode color) 3 s

end Sys2Proof.Machine
end

