-- ==== Sys2Proof/Machine/Dispatch.lean ====
section
/-!
DEFINITION. The dispatch of ExecuteOpcode (spec/42_decoder.md R165): one arm per constructor of Instr.
-/

namespace Sys2Proof.Machine

def exec (i : Instr) (s : State) : Host.Outcome State Fault Refusal :=
  match i with
  | .lit cnt colors => Sys2Proof.Machine.execLit cnt colors s
  | .black cnt => Sys2Proof.Machine.execBlack cnt s
  | .rep cnt color => Sys2Proof.Machine.execRep cnt color s
  | .nl cnt => Sys2Proof.Machine.execNl cnt s
  | .illegal011 cnt => Sys2Proof.Machine.execIllegal011 cnt s
  | .illegal101 cnt => Sys2Proof.Machine.execIllegal101 cnt s
  | .illegal110 cnt => Sys2Proof.Machine.execIllegal110 cnt s
  | .illegal111 cnt => Sys2Proof.Machine.execIllegal111 cnt s

end Sys2Proof.Machine
end

