-- ==== Sys2Proof/Machine/Bmp.lean ====
section
/-!
DEFINITION. The BMP serializer (spec/43_bmp_serializer.md R200-R215): sizes, header generator, row writer, padding
inserter, and the emit step.
-/

namespace Sys2Proof.Machine

/-! ## Sizes (R201), exact (R7) -/

/-- `stride(W) = ((3*W + 3) / 4) * 4`, the bytes of one padded output row (R201). -/
def stride (w : Nat) : Nat := (3 * w + 3) / 4 * 4

/-- `body(W, H) = H * stride(W)` (R201). -/
def bodyLength (w h : Nat) : Nat := h * stride w

/-- `OUT_LEN = 54 + body(W, H)` (R201). -/
def outputLength (w h : Nat) : Nat := 54 + bodyLength w h

/-! ## Header generator -/

/-- `LE16(v)` (R202). -/
def le16Bytes (v : Nat) : List Byte := [BitVec.ofNat 8 v, BitVec.ofNat 8 (v >>> 8)]

/-- `LE32(v)` (R202). -/
def le32Bytes (v : Nat) : List Byte :=
  [BitVec.ofNat 8 v, BitVec.ofNat 8 (v >>> 8), BitVec.ofNat 8 (v >>> 16), BitVec.ofNat 8 (v >>> 24)]

/-- Output bytes 0..13, the file header (R203, R207): signature, file size, two reserved fields, data offset. -/
def fileHeader (w h : Nat) : List Byte :=
  [0x42, 0x4D] ++ le32Bytes (outputLength w h) ++ [0, 0] ++ [0, 0] ++ le32Bytes 54

/-- Output bytes 14..53, the info header (R204-R209): its size, width, height, planes, bits per pixel, compression,
image size, the two resolutions, colors used, important colors. -/
def infoHeader (w h : Nat) : List Byte :=
  le32Bytes 40 ++ (le16Bytes w ++ [0, 0]) ++ (le16Bytes h ++ [0, 0]) ++ le16Bytes 1 ++ le16Bytes 24 ++ le32Bytes 0 ++
    le32Bytes (bodyLength w h) ++ le32Bytes 0 ++ le32Bytes 0 ++ le32Bytes 0 ++ le32Bytes 0

/-- The 54 header bytes. -/
def bmpHeader (w h : Nat) : List Byte := fileHeader w h ++ infoHeader w h

/-! ## Row writer and padding inserter -/

/-- A pixel's three output bytes: blue, green, red (R211). -/
def pixelBytes (px : Pixel) : List Byte := [px.b, px.g, px.r]

/-- `RowBytes(row)`: the pixels of a frame row, column 0 first (R211); `fb` reads the pixel store. -/
def rowBytes (w : Nat) (fb : Nat → Pixel) (row : Nat) : List Byte :=
  (List.range w).flatMap fun col => pixelBytes (fb (row * w + col))

/-- One output row: the row's pixels and `W mod 4` zero bytes (R212). -/
def paddedRow (w : Nat) (fb : Nat → Pixel) (row : Nat) : List Byte :=
  rowBytes w fb row ++ List.replicate (w % 4) 0

/-- `BmpBytes(W, H, FB)`, the whole output (R213), rows bottom-up (R210). -/
def bmpBytes (w h : Nat) (fb : Nat → Pixel) : List Byte :=
  bmpHeader w h ++ (List.range h).flatMap fun k => paddedRow w fb (h - 1 - k)

/-- Where output byte `i` comes from (R213). -/
inductive ByteSource where
  /-- byte `i` of the 54 header bytes -/
  | header (i : Nat)
  /-- the channel numbered `channel` (0 blue, 1 green, 2 red) of the pixel at `index` -/
  | pixel (index channel : Nat)
  /-- a zero byte of row padding -/
  | padding
deriving DecidableEq, Repr

/-- The direct computation of R213 for output byte `i`: `j = i - 54`, `k = j / stride`, `o = j mod stride`,
`row = H - 1 - k`. -/
def byteSource (w h i : Nat) : ByteSource :=
  if i < 54 then .header i
  else
    let o := (i - 54) % stride w
    let row := h - 1 - (i - 54) / stride w
    if o < 3 * w then .pixel (row * w + o / 3) (o % 3) else .padding

/-- A pixel's channel by its place in the output order (R213). -/
def pixelChannel (px : Pixel) (channel : Nat) : Byte :=
  if channel = 0 then px.b else if channel = 1 then px.g else px.r

/-- `BmpByte(i)` (R213). -/
def bmpByte (w h : Nat) (fb : Nat → Pixel) (i : Nat) : Byte :=
  match byteSource w h i with
  | .header k => (bmpHeader w h).getD k 0
  | .pixel index channel => pixelChannel (fb index) channel
  | .padding => 0

/-- The frame's output, in a given state: `BmpBytes(W, H, FB)`. -/
def outputBytes (s : State) : List Byte := bmpBytes s.w.toNat s.h.toNat (fbRead s)

/-- The byte the block offers to the sink: `BmpByte(OUT_POS)` (R214). -/
def offeredByte (s : State) : Byte := bmpByte s.w.toNat s.h.toNat (fbRead s) s.outPos.toNat

/-! ## The emit step -/

/-- Whether the pixel that output byte `i` comes from, if it comes from one, has an entry in the store (R28). -/
def sourceExists (w h i capacity : Nat) : Bool :=
  match byteSource w h i with
  | .header _ => true
  | .pixel index _ => decide (index < capacity)
  | .padding => true

/-- The sink has accepted `b` (R70, R214): the byte is the sink's, OUT_POS counts it, and the last one ends the run. -/
def acceptByte (b : Byte) (s : State) : State :=
  { s with
    out := s.out ++ [b]
    outPos := s.outPos + 1
    phase := if s.outPos + 1 = s.outLen then .done else s.phase }

/-- `EmitStep(answer)`, in PHASE EMIT, when the sink answers (R214). The refused byte is not emitted, so R281's count of
steps does not count it (DEDUCED, log 23). -/
def emitStep (answer : SinkAnswer) (s : State) : Host.Outcome State Fault Refusal :=
  if s.outLen.toNat ≤ s.outPos.toNat then .fault .noOutputByte
  else if sourceExists s.w.toNat s.h.toNat s.outPos.toNat s.fbCapacity = false then .fault .noPixelEntry
  else
    match answer with
    | .refuse => .next (raiseFault .ioError s.outPos s)
    | .accept => .next (acceptByte (offeredByte s) s)

end Sys2Proof.Machine
end

