-- ==== Sys2Proof/Machine/Header.lean ====
section
/-!
DEFINITION. The header step with its dimension check (spec/42_decoder.md R162, R163) and the terminal check (R166).
-/

namespace Sys2Proof.Machine

/-- `DimCheck(w, h)` passes (R163): exact arithmetic (R7), against a store of `capacity` pixels. -/
def dimensionsOk (w h capacity : Nat) : Bool :=
  !(w == 0 || h == 0 || decide (w * h > capacity) || decide (outputLength w h > Config.outputLimit))

/-- The header is accepted (R162): `FBCreate`, RP to the first opcode, PHASE to DECODE. -/
def acceptHeader (w h : Color) (s : State) : State :=
  { fbCreate (w.setWidth 32) (h.setWidth 32) s with rp := 8, phase := .decode }

/-- `HeaderStep()`, in PHASE HEADER (R162): bytes 2, 3, 6 and 7 are not read (R99). -/
def headerStep (s : State) : Host.Outcome State Fault Refusal :=
  if s.inLen.toNat < 8 then .next (raiseFault .truncatedHeader 0 s)
  else if dimensionsOk (inLE16 s 0).toNat (inLE16 s 4).toNat s.fbCapacity = false then
    .next (raiseFault .invalidDimensions 0 s)
  else .next (acceptHeader (inLE16 s 0) (inLE16 s 4) s)

/-- `TerminalCheck()`, in PHASE DECODE with `RP >= IN_LEN` (R166). Where it faults the register OUT_LEN stays 0
(R234): R281's count takes the frame's OUT_LEN of R201 (DEDUCED, log 23). -/
def terminalCheck (s : State) : Host.Outcome State Fault Refusal :=
  if s.pixCount.toNat = s.w.toNat * s.h.toNat then
    .next { s with
      outLen := BitVec.ofNat 32 (outputLength s.w.toNat s.h.toNat), outPos := 0, phase := .emit }
  else .next (raiseFault .incompleteFrame s.rp s)

end Sys2Proof.Machine
end

