-- ==== Sys2Proof/Machine/HostPort.lean ====
section
/-!
DEFINITION. The host's side: the control and status register map (spec/10_state.md R37-R39), the start command
(spec/42_decoder.md R160) and loading the input buffer (spec/70_reset_and_hazards.md R262, R270).
-/

namespace Sys2Proof.Machine

/-- The value of a register read (R37): unlisted bits, the write-only `START` and numbers above 0x0C read 0. -/
def readReg (s : State) (reg : Nat) : Word :=
  match reg with
  | 0x01 => (unpackModeBit s.unpackMode).setWidth 32
  | 0x02 => s.inLen
  | 0x03 => statusWord s.phase
  | 0x04 => (errCodeNumber s.errCode).setWidth 32
  | 0x05 => s.errPos
  | 0x06 => s.w
  | 0x07 => s.h
  | 0x08 => s.cursor
  | 0x09 => s.pixCount
  | 0x0A => s.rp
  | 0x0B => s.outPos
  | 0x0C => s.outLen
  | _ => 0

/-- The start command: it begins a run in a quiescent phase and is ignored in a busy one (R160, U16). -/
def startCommand (s : State) : State := if busy s.phase then s else startRun s

/-- A host write to a register (R37, R38): CTRL, CONFIG and IN_LEN, the last two ignored while busy; every other
number is read-only or absent and ignores the write. -/
def writeReg (reg : Nat) (v : Word) (s : State) : State :=
  match reg with
  | 0x00 => if v.getLsbD 0 then startCommand s else s
  | 0x01 => if busy s.phase then s else { s with unpackMode := unpackModeOfBit (v.getLsbD 0) }
  | 0x02 => if busy s.phase then s else { s with inLen := v }
  | _ => s

/-- A host read (R39): the value is the host's, and no register changes. -/
def hostRead (reg : Nat) (s : State) : State := { s with readData := readReg s reg }

/-- The host places a byte in the input buffer (R262 step 2): no move of a busy phase (R270, U14; log 7), and there is
no offset `2^32 - 1` (log 8). -/
def loadInput (offset : Word) (b : Byte) (s : State) : Host.Outcome State Fault Refusal :=
  if busy s.phase then .refused .inputLoadWhileBusy
  else if Config.inputSpace ≤ offset.toNat then .fault .noInputOffset
  else .next { s with input := Memory.write s.input offset.toNat b }

end Sys2Proof.Machine
end

