-- ==== Sys2Proof/Machine/Sequencer.lean ====
section
/-!
DEFINITION. The order of work: the decode step (spec/42_decoder.md R164, R165), the block's step in each phase (R161),
the host's moves between block steps (R161, R272), and the load of one opcode for the host's checks.
-/

namespace Sys2Proof.Machine

/-- `ExecuteOpcode(InByte(RP))` (R165), with `RP < IN_LEN`: decode the opcode at RP and execute it. Where its color
bytes pass the end of the input there is no opcode to decode, and the fault of R170 and R180 is taken (log 13). -/
def executeOpcode (s : State) : Host.Outcome State Fault Refusal :=
  match decodeOpcode (inByte s s.rp.toNat) (operandBytes s) with
  | some (i, _) => exec i s
  | none => .next (raiseFault .truncatedOpcode s.rp s)

/-- `DecodeStep()`, in PHASE DECODE (R164). -/
def decodeStep (s : State) : Host.Outcome State Fault Refusal :=
  if s.inLen.toNat ≤ s.rp.toNat then terminalCheck s else executeOpcode s

/-- The block's turn, with no answer from the sink (R161): where no step is enabled nothing changes (log 6). -/
def blockStep (s : State) : Host.Outcome State Fault Refusal :=
  match s.phase with
  | .idle => .next s
  | .header => headerStep s
  | .decode => decodeStep s
  | .emit => .next s
  | .done => .next s
  | .fault => .next s

/-- The sink's answer: it enables the emit step in PHASE EMIT (R161, R214); in another phase no byte is offered and
there is nothing to answer. -/
def sinkAnswers (a : SinkAnswer) (s : State) : Host.Outcome State Fault Refusal :=
  match s.phase with
  | .emit => emitStep a s
  | .idle => .next s
  | .header => .next s
  | .decode => .next s
  | .done => .next s
  | .fault => .next s

/-- One move of the host (R272). -/
def hostStep (m : HostMove) (s : State) : Host.Outcome State Fault Refusal :=
  match m with
  | .idle => blockStep s
  | .write reg v => .next (writeReg reg v s)
  | .read reg => .next (hostRead reg s)
  | .load offset b => loadInput offset b s
  | .answer a => sinkAnswers a s
  | .reset => .next (resetBlock s)

/-- One step of the two agents: the host's next move, or the block's turn when the host has none to come (log 5). -/
def advance (s : State) : Host.Outcome State Fault Refusal :=
  match s.host with
  | [] => blockStep s
  | m :: rest => hostStep m { s with host := rest }

/-! ## One opcode placed where the next step fetches -/

/-- A run begun on a 1x1 frame: its header is in the input buffer and has been accepted (log 12). -/
def enterDecode (s : State) : State :=
  acceptHeader 1 1 { startRun s with input := Memory.writeSeq s.input 0 (encodeHeader 1 1) }

/-- Whether the longest opcode fits at RP in the input buffer's space. -/
def fetchRoom (s : State) : Bool := decide (s.rp.toNat + longestOpcode ≤ Config.inputSpace)

/-- Place `bytes` where the next step fetches (log 12): at RP of a run in PHASE DECODE, or at offset 8 of a run begun
for it; IN_LEN takes them in, and the turn is the block's. -/
def placeOpcode (bytes : List Byte) (s : State) : State :=
  let t := if s.phase = .decode ∧ fetchRoom s = true then s else enterDecode s
  { t with
    input := Memory.writeSeq t.input t.rp.toNat bytes
    inLen := BitVec.ofNat 32 (max t.inLen.toNat (t.rp.toNat + longestOpcode))
    host := [] }

end Sys2Proof.Machine
end

