-- ==== Sys2Proof/Machine/Step.lean ====
section
/-!
DEFINITION. The machine's step (spec/42_decoder.md R161), and the host's way to place one opcode where the next step
fetches it.
-/

namespace Sys2Proof.Machine

/-- One step: the host's next move, or the block's step (Machine/Sequencer.lean). -/
def step (s : State) : Host.Outcome State Fault Refusal := advance s

/-- The instruction whose bits are `w` stored where `step` fetches its next instruction. -/
def State.withFetchWord (s : State) (nbits w : Nat) : State := placeOpcode (tableBytes nbits w) s

end Sys2Proof.Machine
end

