-- ==== Sys2Proof/Safety.lean ====
section
/-!
DEFINITION. What counts as a good state and a good run (spec/10_state.md R33), in the terms the statements use: whose
turn it is, the register invariants, the pixel and output invariants, and the legal phase transitions (R23).
-/

namespace Sys2Proof.Machine

/-! ## Turns (log 5) -/

/-- The block's turn: the host has no move to come, or does nothing now. -/
def blockTurn (s : State) : Bool :=
  match s.host with
  | [] => true
  | .idle :: _ => true
  | .write _ _ :: _ => false
  | .read _ :: _ => false
  | .load _ _ :: _ => false
  | .answer _ :: _ => false
  | .reset :: _ => false

/-- The state with the host's move taken off its list. -/
def popHost (s : State) : State := { s with host := s.host.tail }

/-! ## Invariants -/

/-- "Bits 31:16 of each are always 0" (R25). -/
def frameRegs (s : State) : Prop := s.w.toNat < 65536 ∧ s.h.toNat < 65536

/-- The frame's accounting (R26, R27, R33 items 1, 3, 4, 5; R141 `W * H <= FB_CAPACITY`): `rows` is the `NL_COUNT` of
R33, which is no register. -/
def FrameInv (s : State) : Prop :=
  frameRegs s ∧
  s.cursor.toNat ≤ s.w.toNat ∧
  s.pixCount.toNat ≤ s.w.toNat * s.h.toNat ∧
  s.w.toNat * s.h.toNat ≤ s.fbCapacity ∧
  (∃ rows, rows ≤ s.h.toNat ∧ s.pixCount.toNat = rows * s.w.toNat + s.cursor.toNat) ∧
  ∀ i, i < s.pixCount.toNat → (cellsGet s.fb i).isSome = true

/-- The run registers at 0, as the start command leaves them (R160). -/
def runCleared (s : State) : Prop :=
  s.w = 0 ∧ s.h = 0 ∧ s.rp = 0 ∧ s.cursor = 0 ∧ s.pixCount = 0 ∧ s.outPos = 0 ∧ s.outLen = 0

/-- The header was accepted (R162, R163): a frame the block can hold and serialize, RP past the header. -/
def headerAccepted (s : State) : Prop :=
  1 ≤ s.w.toNat ∧ 1 ≤ s.h.toNat ∧ outputLength s.w.toNat s.h.toNat ≤ Config.outputLimit ∧ 8 ≤ s.rp.toNat

/-- The frame is complete and OUT_LEN is the length of its output (R33 item 6). -/
def frameComplete (s : State) : Prop :=
  s.pixCount.toNat = s.w.toNat * s.h.toNat ∧ s.outLen.toNat = outputLength s.w.toNat s.h.toNat

/-- What each phase says of the run registers (R31, R32, R33 items 2 and 6). `RP <= IN_LEN` is said of the busy phases
only: in DONE and FAULT the host may write IN_LEN (R38; log 11). -/
def PhaseInv (s : State) : Prop :=
  match s.phase with
  | .idle => runCleared s ∧ s.errCode = .none ∧ s.errPos = 0
  | .header => runCleared s ∧ s.errCode = .none ∧ s.errPos = 0
  | .decode =>
    headerAccepted s ∧ s.rp.toNat ≤ s.inLen.toNat ∧ s.outPos = 0 ∧ s.outLen = 0 ∧ s.errCode = .none ∧ s.errPos = 0
  | .emit =>
    headerAccepted s ∧ s.rp.toNat ≤ s.inLen.toNat ∧ frameComplete s ∧ s.outPos.toNat < s.outLen.toNat ∧
      s.errCode = .none ∧ s.errPos = 0
  | .done =>
    headerAccepted s ∧ frameComplete s ∧ s.outPos = s.outLen ∧ s.errCode = .none ∧ s.errPos = 0
  | .fault => s.errCode ≠ .none ∧ s.outPos.toNat ≤ s.outLen.toNat

/-- The machine's invariant (R33). -/
def CoreInv (s : State) : Prop := FrameInv s ∧ PhaseInv s

/-- The two memories have their canonical form. -/
def StorageInv (s : State) : Prop := Memory.wf s.input = true ∧ PixelStore.wf s.fbCapacity s.fb = true

/-- What the sink has accepted ends in the first OUT_POS bytes of the frame's output, and of nothing else of this run
(R70, R195, R214). -/
def SinkInv (s : State) : Prop := (outputBytes s).take s.outPos.toNat <:+ s.out

/-! ## Phase transitions (R23) -/

/-- The rows of R23's table whose two phases differ. -/
def legalTransition (p q : Phase) : Prop :=
  (busy p = false ∧ q = .header) ∨
  (p = .header ∧ q = .decode) ∨ (p = .header ∧ q = .fault) ∨
  (p = .decode ∧ q = .fault) ∨ (p = .decode ∧ q = .emit) ∨
  (p = .emit ∧ q = .done) ∨ (p = .emit ∧ q = .fault) ∨
  q = .idle

/-! ## Runs of pixels, as the statements speak of them -/

/-- How many pixels an opcode appends when it completes: the entries it stores to are the next so many after PIX_COUNT
(R142, R145). -/
def pixelsAppended (i : Instr) (s : State) : Nat :=
  match i with
  | .lit _ colors => colors.length
  | .black cnt => runCount cnt
  | .rep cnt _ => runCount cnt
  | .nl _ => padCount s
  | .illegal011 _ => 0
  | .illegal101 _ => 0
  | .illegal110 _ => 0
  | .illegal111 _ => 0

/-- The pixels an opcode appends when it completes, the first one first (R170, R175, R180, R185). -/
def pixelRun (i : Instr) (s : State) : List Pixel :=
  match i with
  | .lit _ colors => colors.map (unpack s.unpackMode)
  | .black cnt => List.replicate (runCount cnt) Pixel.black
  | .rep cnt color => List.replicate (runCount cnt) (unpack s.unpackMode color)
  | .nl _ => List.replicate (padCount s) Pixel.black
  | .illegal011 _ => []
  | .illegal101 _ => []
  | .illegal110 _ => []
  | .illegal111 _ => []

/-- `n` single-pixel `AppendRun(1, p_i)` calls in order, stopping at the first that faults (R142). -/
def appendEach : List Pixel → State → Host.Outcome State Fault Refusal
  | [], s => .next s
  | px :: pixels, s =>
    match appendRun 1 px 0 s with
    | .next t => if t.phase = .fault then .next t else appendEach pixels t
    | .fault r => .fault r
    | .refused r => .refused r

/-- A run of `n` pixels from PIX_COUNT on fits in the row, in the frame and in the store (R143, R144, R141). -/
def runFits (n : Nat) (s : State) : Prop :=
  s.cursor.toNat + n ≤ s.w.toNat ∧ s.pixCount.toNat + n ≤ s.w.toNat * s.h.toNat ∧
    s.w.toNat * s.h.toNat ≤ s.fbCapacity

/-- `t` is `s` after an opcode of `len` bytes that appended `n` pixels and left CURSOR at `col`: RP, PIX_COUNT and CURSOR
moved, every pixel-store entry but the `n` after PIX_COUNT as before, and nothing else changed. -/
def opcodeDone (n len col : Nat) (s t : State) : Prop :=
  t = { s with rp := t.rp, cursor := t.cursor, pixCount := t.pixCount, fb := t.fb } ∧
  t.rp = s.rp + BitVec.ofNat 32 len ∧ t.cursor.toNat = col ∧ t.pixCount.toNat = s.pixCount.toNat + n ∧
  ∀ i, (i < s.pixCount.toNat ∨ s.pixCount.toNat + n ≤ i) → cellsGet t.fb i = cellsGet s.fb i

/-! ## Whole runs (R195) -/

/-- The host's next move answers the sink's offer. -/
def sinkTurn (s : State) : Bool :=
  match s.host with
  | .answer _ :: _ => true
  | [] => false
  | .idle :: _ => false
  | .write _ _ :: _ => false
  | .read _ :: _ => false
  | .load _ _ :: _ => false
  | .reset :: _ => false

/-- The next step is an enabled step of the block (R161): its turn in HEADER or DECODE, the sink's answer in EMIT. -/
def blockEnabled (s : State) : Bool :=
  match s.phase with
  | .header => blockTurn s
  | .decode => blockTurn s
  | .emit => sinkTurn s
  | .idle => false
  | .done => false
  | .fault => false

/-- The state `n` steps on, or the one in which the run ended, if that comes first. -/
def runState : Nat → State → Host.Outcome State Fault Refusal
  | 0, s => .next s
  | n + 1, s =>
    if busy s.phase then
      match step s with
      | .next t => runState n t
      | .fault r => .fault r
      | .refused r => .refused r
    else .next s

/-- The host's next move refuses the byte the block offers (R70). -/
def sinkRefuses (s : State) : Bool := decide (s.phase = .emit ∧ s.host.head? = some (.answer .refuse))

/-- The next step is one that R280 counts: a header parse, an opcode, a terminal check or one emitted byte. A refused byte
"does not count as emitted" (R214), so it is none (DEDUCED, log 23). -/
def stepCounts (s : State) : Bool := blockEnabled s && !sinkRefuses s

/-- How many of the run's next `n` steps R280 and R281 count: the host's moves between the block's steps and a refused byte
are not among them. -/
def runBlockSteps : Nat → State → Nat
  | 0, _ => 0
  | n + 1, s =>
    if busy s.phase then
      match step s with
      | .next t => (stepCounts s).toNat + runBlockSteps n t
      | .fault _ => 0
      | .refused _ => 0
    else 0

/-- The opcodes of the input's stream, from offset 8 to its end (R68, R90); `none` where it ends inside one. -/
def streamOpcodes (s : State) : Option (List Instr) :=
  decodeStream (s.inLen.toNat - 8) (memRead s 8 (s.inLen.toNat - 8))

/-- `1 + (number of opcodes in the stream) + 1 + OUT_LEN` (R281), OUT_LEN the size R201 gives the frame of `t` (log 23). -/
def wholeRunSteps (opcodes : Nat) (t : State) : Nat := 1 + opcodes + 1 + outputLength t.w.toNat t.h.toNat

/-- At most how many steps the run takes before EMIT (R195): the header step, one for each unread byte, and the terminal
check. -/
def decodingStepsLeft (s : State) : Nat :=
  match s.phase with
  | .header => 1 + (s.inLen.toNat - 8) + 1
  | .decode => (s.inLen.toNat - s.rp.toNat) + 1
  | .emit => 0
  | .idle => 0
  | .done => 0
  | .fault => 0

/-- The two ways a run ends (R195), from `s` in `t`, the host's moves being `moves`: in DONE with exactly the rest of
BmpBytes accepted, in order; or in FAULT with a code, IoError only where the host refuses a byte. -/
def RunEnded (moves : List HostMove) (s t : State) : Prop :=
  (t.phase = .done ∧ t.outPos = t.outLen ∧ t.out = s.out ++ (outputBytes t).drop s.outPos.toNat) ∨
  (t.phase = .fault ∧ t.errCode ≠ .none ∧ (t.errCode = .ioError → .answer .refuse ∈ moves))

end Sys2Proof.Machine
end

