-- ==== Sys2Proof/Certificates/Slice0/Obligations.lean ====
section
/-!
DEFINITION. The statements about the model, from the numbered rules of spec/. "popHost s" is s with the host's move
taken off its list (log 5): the model's own field, which every step pops.
-/

open Sys2Proof Sys2Proof.Machine

/-! ## Encoding (spec/30_encoding.md) -/

/-- Decoding an encoded well-formed opcode gives it back, with the bytes after it (R90-R96). -/
def Obligations.DecodeOfEncodeIsTheOpcode : Prop :=
  ∀ (i : Instr) (rest : List Byte), i.wf = true → decode (encode i ++ rest) = .opcode i rest

/-- Whatever decodes is the encoding of a well-formed opcode, with the bytes after it (R90-R96). -/
def Obligations.EncodeOfDecodeIsTheBytes : Prop :=
  ∀ (bytes rest : List Byte) (i : Instr), decode bytes = .opcode i rest → i.wf = true ∧ encode i ++ rest = bytes

/-- Opcodes laid end to end decode to the same opcodes, with no gaps (R90). -/
def Obligations.StreamOfOpcodesDecodesBack : Prop :=
  ∀ program : List Instr, (∀ i ∈ program, i.wf = true) →
    decodeStream (program.flatMap encode).length (program.flatMap encode) = some program

/-- The control byte alone gives the opcode's length (R94): 1 + 2n for tag 000, 3 for tag 010, 1 for every other; the
decoder consumes exactly that many bytes, and rejects only where fewer are there. -/
def Obligations.ControlByteGivesLength : Prop :=
  ∀ (ctrl : Byte) (bytes : List Byte),
    let length := if ctrl.toNat / 32 = 0 then 1 + 2 * (ctrl.toNat % 32 + 1) else if ctrl.toNat / 32 = 2 then 3 else 1
    (length ≤ bytes.length + 1 →
      ∃ i rest, decode (ctrl :: bytes) = .opcode i rest ∧ opcodeLength i = length ∧
        rest = (ctrl :: bytes).drop length) ∧
    (bytes.length + 1 < length → decode (ctrl :: bytes) = .reject .truncatedOperands)

/-- The tag alone selects the opcode, over all 32 values of CNT (R96, R97, R98), by the match and mask of R96. -/
def Obligations.TagSelectsOpcode : Prop :=
  ∀ (ctrl : Byte) (bytes rest : List Byte) (i : Instr), decode (ctrl :: bytes) = .opcode i rest →
    (ctrl &&& 0xE0 = 0x00 ↔ ∃ cnt colors, i = .lit cnt colors) ∧
    (ctrl &&& 0xE0 = 0x20 ↔ ∃ cnt, i = .black cnt) ∧
    (ctrl &&& 0xE0 = 0x40 ↔ ∃ cnt color, i = .rep cnt color) ∧
    (ctrl &&& 0xE0 = 0x80 ↔ ∃ cnt, i = .nl cnt) ∧
    (ctrl &&& 0xE0 = 0x60 ↔ ∃ cnt, i = .illegal011 cnt) ∧
    (ctrl &&& 0xE0 = 0xA0 ↔ ∃ cnt, i = .illegal101 cnt) ∧
    (ctrl &&& 0xE0 = 0xC0 ↔ ∃ cnt, i = .illegal110 cnt) ∧
    (ctrl &&& 0xE0 = 0xE0 ↔ ∃ cnt, i = .illegal111 cnt)

/-- The encoding examples of R102, both ways. -/
def Obligations.EncodingExamples : Prop :=
  encode (.black 1) = [0x21] ∧ decode [0x21] = .opcode (.black 1) [] ∧
  encode (.black 31) = [0x3F] ∧ decode [0x3F] = .opcode (.black 31) [] ∧
  encode (.lit 0 [0x1234]) = [0x00, 0x34, 0x12] ∧ decode [0x00, 0x34, 0x12] = .opcode (.lit 0 [0x1234]) [] ∧
  encode (.lit 1 [0x7800, 0x03C0]) = [0x01, 0x00, 0x78, 0xC0, 0x03] ∧
  decode [0x01, 0x00, 0x78, 0xC0, 0x03] = .opcode (.lit 1 [0x7800, 0x03C0]) [] ∧
  encode (.rep 2 0xFFFF) = [0x42, 0xFF, 0xFF] ∧ decode [0x42, 0xFF, 0xFF] = .opcode (.rep 2 0xFFFF) [] ∧
  encode (.rep 31 0x0001) = [0x5F, 0x01, 0x00] ∧ decode [0x5F, 0x01, 0x00] = .opcode (.rep 31 0x0001) [] ∧
  encode (.nl 0) = [0x80] ∧ decode [0x80] = .opcode (.nl 0) [] ∧
  encode (.nl 31) = [0x9F] ∧ decode [0x9F] = .opcode (.nl 31) [] ∧
  encodeHeader 2 1 = [0x02, 0x00, 0x00, 0x00, 0x01, 0x00, 0x00, 0x00]

/-! ## The color16 unpacker (spec/40_pixel_unpack.md) -/

/-- COMPAT (R122): blue 0, green `c[9:6] << 3`, red `c[14:11] << 3`; bit 7 and bits 2:0 of a channel are 0; only bits
14:11 and 9:6 of `c` matter. -/
def Obligations.CompatUnpack : Prop :=
  ∀ c : Color,
    (unpack .compat c).b = 0 ∧
    (unpack .compat c).g.toNat = c.toNat / 64 % 16 * 8 ∧
    (unpack .compat c).r.toNat = c.toNat / 2048 % 16 * 8 ∧
    ∀ d : Color, d.toNat / 64 % 16 = c.toNat / 64 % 16 → d.toNat / 2048 % 16 = c.toNat / 2048 % 16 →
      unpack .compat d = unpack .compat c

/-- RGB555 (R123): red `c[5:1]`, green `c[10:6]`, blue `c[15:11]`, each shifted left by 3; bit 0 of `c` is not read and
every other bit matters. -/
def Obligations.Rgb555Unpack : Prop :=
  ∀ c : Color,
    (unpack .rgb555 c).r.toNat = c.toNat / 2 % 32 * 8 ∧
    (unpack .rgb555 c).g.toNat = c.toNat / 64 % 32 * 8 ∧
    (unpack .rgb555 c).b.toNat = c.toNat / 2048 % 32 * 8 ∧
    ∀ d : Color, unpack .rgb555 d = unpack .rgb555 c ↔ d.toNat / 2 = c.toNat / 2

/-! ## Opcodes: results and completion (spec/42_decoder.md R170-R190) -/

/-- LIT completes and appends its colors' pixels, one each, in order (R170, R142). -/
def Obligations.LitAppendsItsColors : Prop :=
  ∀ (cnt : BitVec 5) (colors : List Color) (s : State),
    (Instr.lit cnt colors).wf = true →
    s.rp.toNat + 1 + 2 * colors.length ≤ s.inLen.toNat → runFits colors.length s → frameRegs s →
    ∃ t, exec (.lit cnt colors) s = .next t ∧
      opcodeDone colors.length (1 + 2 * colors.length) (s.cursor.toNat + colors.length) s t ∧
      ∀ k (hk : k < colors.length), fbRead t (s.pixCount.toNat + k) = unpack s.unpackMode colors[k]

/-- BLACK completes and appends n black pixels, in either unpack mode (R175). -/
def Obligations.BlackAppendsBlackPixels : Prop :=
  ∀ (cnt : BitVec 5) (s : State), runFits (cnt.toNat + 1) s → frameRegs s →
    ∃ t, exec (.black cnt) s = .next t ∧
      opcodeDone (cnt.toNat + 1) 1 (s.cursor.toNat + (cnt.toNat + 1)) s t ∧
      ∀ k, k < cnt.toNat + 1 → fbRead t (s.pixCount.toNat + k) = ⟨0, 0, 0⟩

/-- REP completes and appends its color's pixel n times (R180). -/
def Obligations.RepAppendsOneColor : Prop :=
  ∀ (cnt : BitVec 5) (color : Color) (s : State),
    s.rp.toNat + 3 ≤ s.inLen.toNat → runFits (cnt.toNat + 1) s → frameRegs s →
    ∃ t, exec (.rep cnt color) s = .next t ∧
      opcodeDone (cnt.toNat + 1) 3 (s.cursor.toNat + (cnt.toNat + 1)) s t ∧
      ∀ k, k < cnt.toNat + 1 → fbRead t (s.pixCount.toNat + k) = unpack s.unpackMode color

/-- NL completes: it appends W - CURSOR black pixels (none at the row's end, a whole row at column 0) and resets CURSOR,
whatever its count field (R145, R185). -/
def Obligations.NlPadsTheRow : Prop :=
  ∀ (cnt : BitVec 5) (s : State), s.cursor.toNat ≤ s.w.toNat →
    s.pixCount.toNat + (s.w.toNat - s.cursor.toNat) ≤ s.w.toNat * s.h.toNat →
    s.w.toNat * s.h.toNat ≤ s.fbCapacity → frameRegs s →
    ∃ t, exec (.nl cnt) s = .next t ∧ opcodeDone (s.w.toNat - s.cursor.toNat) 1 0 s t ∧
      ∀ k, k < s.w.toNat - s.cursor.toNat → fbRead t (s.pixCount.toNat + k) = ⟨0, 0, 0⟩

/-- Every illegal tag takes UnrecognizedOpcode at RP, in every state, and changes nothing else (R190). -/
def Obligations.IllegalTakesUnrecognizedOpcode : Prop :=
  ∀ (cnt : BitVec 5) (s : State) (i : Instr),
    i = .illegal011 cnt ∨ i = .illegal101 cnt ∨ i = .illegal110 cnt ∨ i = .illegal111 cnt →
    exec i s = .next { s with phase := .fault, errCode := .unrecognizedOpcode, errPos := s.rp }

/-! ## Opcodes as the decode step runs them -/

/-- A step runs the decoded opcode (R164, R165): where the control byte and the operand bytes at RP decode to `i`, the
block's turn in PHASE DECODE with unread input is `exec i`. -/
def Obligations.StepRunsDecodedOpcode : Prop :=
  ∀ (s : State) (i : Instr) (rest : List Byte),
    blockTurn s = true → s.phase = .decode → s.rp.toNat < s.inLen.toNat →
    decodeOpcode (inByte s s.rp.toNat) (operandBytes s) = some (i, rest) →
    step s = exec i (popHost s)

/-- What is fetched is the input (R90, R93, R94): the opcode decoded at RP is well-formed, its encoding is the input's
bytes from RP on, and it lies inside the input. -/
def Obligations.FetchedOpcodeIsTheInputsBytes : Prop :=
  ∀ (s : State) (i : Instr) (rest : List Byte), s.rp.toNat < s.inLen.toNat →
    decodeOpcode (inByte s s.rp.toNat) (operandBytes s) = some (i, rest) →
    i.wf = true ∧ s.rp.toNat + opcodeLength i ≤ s.inLen.toNat ∧
      ∀ k, k < opcodeLength i → (encode i)[k]? = some (inByte s (s.rp.toNat + k))

/-- LIT, whole (R170): control byte `000nnnnn`; truncation, row and frame faults in that order, each at RP; otherwise
pixel k is `Unpack(InLE16(RP + 1 + 2k))`. -/
def Obligations.LitStep : Prop :=
  ∀ (s : State) (cnt : BitVec 5), blockTurn s = true → s.phase = .decode → s.rp.toNat < s.inLen.toNat →
    (inByte s s.rp.toNat).toNat = cnt.toNat →
    (s.inLen.toNat < s.rp.toNat + 1 + 2 * (cnt.toNat + 1) →
      step s = .next { popHost s with phase := .fault, errCode := .truncatedOpcode, errPos := s.rp }) ∧
    (s.rp.toNat + 1 + 2 * (cnt.toNat + 1) ≤ s.inLen.toNat → s.w.toNat < s.cursor.toNat + (cnt.toNat + 1) →
      step s = .next { popHost s with phase := .fault, errCode := .rowOverrun, errPos := s.rp }) ∧
    (s.rp.toNat + 1 + 2 * (cnt.toNat + 1) ≤ s.inLen.toNat → s.cursor.toNat + (cnt.toNat + 1) ≤ s.w.toNat →
      s.w.toNat * s.h.toNat < s.pixCount.toNat + (cnt.toNat + 1) →
      step s = .next { popHost s with phase := .fault, errCode := .frameOverflow, errPos := s.rp }) ∧
    (s.rp.toNat + 1 + 2 * (cnt.toNat + 1) ≤ s.inLen.toNat → runFits (cnt.toNat + 1) s → frameRegs s →
      ∃ t, step s = .next t ∧
        opcodeDone (cnt.toNat + 1) (1 + 2 * (cnt.toNat + 1)) (s.cursor.toNat + (cnt.toNat + 1)) (popHost s) t ∧
        ∀ k, k < cnt.toNat + 1 →
          fbRead t (s.pixCount.toNat + k) = unpack s.unpackMode (inLE16 s (s.rp.toNat + 1 + 2 * k)))

/-- BLACK, whole (R175): control byte `001nnnnn`; row and frame faults in that order; otherwise n black pixels. -/
def Obligations.BlackStep : Prop :=
  ∀ (s : State) (cnt : BitVec 5), blockTurn s = true → s.phase = .decode → s.rp.toNat < s.inLen.toNat →
    (inByte s s.rp.toNat).toNat = 0x20 + cnt.toNat →
    (s.w.toNat < s.cursor.toNat + (cnt.toNat + 1) →
      step s = .next { popHost s with phase := .fault, errCode := .rowOverrun, errPos := s.rp }) ∧
    (s.cursor.toNat + (cnt.toNat + 1) ≤ s.w.toNat → s.w.toNat * s.h.toNat < s.pixCount.toNat + (cnt.toNat + 1) →
      step s = .next { popHost s with phase := .fault, errCode := .frameOverflow, errPos := s.rp }) ∧
    (runFits (cnt.toNat + 1) s → frameRegs s →
      ∃ t, step s = .next t ∧
        opcodeDone (cnt.toNat + 1) 1 (s.cursor.toNat + (cnt.toNat + 1)) (popHost s) t ∧
        ∀ k, k < cnt.toNat + 1 → fbRead t (s.pixCount.toNat + k) = ⟨0, 0, 0⟩)

/-- REP, whole (R180): control byte `010nnnnn`; truncation, row and frame faults in that order, each at RP; otherwise
`Unpack(InLE16(RP + 1))`, n times. -/
def Obligations.RepStep : Prop :=
  ∀ (s : State) (cnt : BitVec 5), blockTurn s = true → s.phase = .decode → s.rp.toNat < s.inLen.toNat →
    (inByte s s.rp.toNat).toNat = 0x40 + cnt.toNat →
    (s.inLen.toNat < s.rp.toNat + 3 →
      step s = .next { popHost s with phase := .fault, errCode := .truncatedOpcode, errPos := s.rp }) ∧
    (s.rp.toNat + 3 ≤ s.inLen.toNat → s.w.toNat < s.cursor.toNat + (cnt.toNat + 1) →
      step s = .next { popHost s with phase := .fault, errCode := .rowOverrun, errPos := s.rp }) ∧
    (s.rp.toNat + 3 ≤ s.inLen.toNat → s.cursor.toNat + (cnt.toNat + 1) ≤ s.w.toNat →
      s.w.toNat * s.h.toNat < s.pixCount.toNat + (cnt.toNat + 1) →
      step s = .next { popHost s with phase := .fault, errCode := .frameOverflow, errPos := s.rp }) ∧
    (s.rp.toNat + 3 ≤ s.inLen.toNat → runFits (cnt.toNat + 1) s → frameRegs s →
      ∃ t, step s = .next t ∧
        opcodeDone (cnt.toNat + 1) 3 (s.cursor.toNat + (cnt.toNat + 1)) (popHost s) t ∧
        ∀ k, k < cnt.toNat + 1 → fbRead t (s.pixCount.toNat + k) = unpack s.unpackMode (inLE16 s (s.rp.toNat + 1)))

/-- NL, whole (R145, R185, R98): control bytes `100xxxxx`, all 32 alike; the frame fault, which under the frame's
accounting (R33) comes only after all H rows have ended, and otherwise the row's padding. CURSOR is at most W (R26). -/
def Obligations.NlStep : Prop :=
  ∀ (s : State) (x : BitVec 5), blockTurn s = true → s.phase = .decode → s.rp.toNat < s.inLen.toNat →
    (inByte s s.rp.toNat).toNat = 0x80 + x.toNat → s.cursor.toNat ≤ s.w.toNat →
    (s.w.toNat * s.h.toNat < s.pixCount.toNat + (s.w.toNat - s.cursor.toNat) →
      step s = .next { popHost s with phase := .fault, errCode := .frameOverflow, errPos := s.rp }) ∧
    (FrameInv s → s.w.toNat * s.h.toNat < s.pixCount.toNat + (s.w.toNat - s.cursor.toNat) →
      s.pixCount.toNat = s.w.toNat * s.h.toNat ∧ s.cursor.toNat = 0) ∧
    (s.pixCount.toNat + (s.w.toNat - s.cursor.toNat) ≤ s.w.toNat * s.h.toNat →
      s.w.toNat * s.h.toNat ≤ s.fbCapacity → frameRegs s →
      ∃ t, step s = .next t ∧ opcodeDone (s.w.toNat - s.cursor.toNat) 1 0 (popHost s) t ∧
        ∀ k, k < s.w.toNat - s.cursor.toNat → fbRead t (s.pixCount.toNat + k) = ⟨0, 0, 0⟩)

/-- Illegal control bytes, whole (R97, R190): 0x60-0x7F and 0xA0-0xFF take UnrecognizedOpcode at RP, whatever follows. -/
def Obligations.IllegalStep : Prop :=
  ∀ s : State, blockTurn s = true → s.phase = .decode → s.rp.toNat < s.inLen.toNat →
    (0x60 ≤ (inByte s s.rp.toNat).toNat ∧ (inByte s s.rp.toNat).toNat ≤ 0x7F ∨ 0xA0 ≤ (inByte s s.rp.toNat).toNat) →
    step s = .next { popHost s with phase := .fault, errCode := .unrecognizedOpcode, errPos := s.rp }

/-! ## Opcodes: frames and laws -/

/-- What an opcode leaves unchanged (R24, R28, R34, R234): a faulting opcode writes the three fault registers only; any
other writes RP, CURSOR, PIX_COUNT and the entries of the pixel store it appends, and nothing else. -/
def Obligations.OpcodeFrame : Prop :=
  ∀ (i : Instr) (s t : State), frameRegs s → exec i s = .next t →
    (∃ code, t = { s with phase := .fault, errCode := code, errPos := s.rp }) ∨
    (t = { s with rp := t.rp, cursor := t.cursor, pixCount := t.pixCount, fb := t.fb } ∧
      t.rp = s.rp + BitVec.ofNat 32 (opcodeLength i) ∧
      t.pixCount.toNat = s.pixCount.toNat + pixelsAppended i s ∧
      ∀ j, (j < s.pixCount.toNat ∨ s.pixCount.toNat + pixelsAppended i s ≤ j) → cellsGet t.fb j = cellsGet s.fb j)

/-- An opcode's behaviour depends only on its bytes and on W, H, CURSOR, PIX_COUNT, IN_LEN, RP and UNPACK_MODE (R34),
given the build's capacity: two such states take the same fault or append the same pixels and move alike. -/
def Obligations.OpcodeDependsOnlyOnItsRegisters : Prop :=
  ∀ (i : Instr) (s s' t : State), frameRegs s →
    s'.w = s.w → s'.h = s.h → s'.cursor = s.cursor → s'.pixCount = s.pixCount → s'.inLen = s.inLen → s'.rp = s.rp →
    s'.unpackMode = s.unpackMode → s'.fbCapacity = s.fbCapacity → s'.phase = s.phase → s'.errCode = s.errCode →
    s'.errPos = s.errPos → exec i s = .next t →
    ∃ t', exec i s' = .next t' ∧ t'.phase = t.phase ∧ t'.errCode = t.errCode ∧ t'.errPos = t.errPos ∧ t'.rp = t.rp ∧
      t'.cursor = t.cursor ∧ t'.pixCount = t.pixCount ∧
      ∀ k, s.pixCount.toNat ≤ k → k < t.pixCount.toNat → fbRead t' k = fbRead t k

/-- AppendSeq of n pixels is n single-pixel AppendRun calls in order, where none of them faults (R142). -/
def Obligations.AppendSeqIsSinglePixelRuns : Prop :=
  ∀ (pixels : List Pixel) (s : State), runFits pixels.length s → frameRegs s → s.phase ≠ .fault →
    ∃ t, appendSeq pixels 0 s = .next t ∧ appendEach pixels s = .next t

/-- BLACK n gives the same store as REP n of the color 0, and is 2 bytes shorter (R175, R125). -/
def Obligations.BlackIsRepOfColorZero : Prop :=
  ∀ (cnt : BitVec 5) (s t : State), s.rp.toNat + 3 ≤ s.inLen.toNat → exec (.black cnt) s = .next t →
    t.phase = s.phase → s.phase ≠ .fault → exec (.rep cnt 0x0000) s = .next { t with rp := t.rp + 2 }

/-- Raster order (R146): the place j to the right of CURSOR is frame pixel (PIX_COUNT / W, CURSOR + j); and where an opcode
completes, the j-th pixel it appends stays in its row and is the next state's entry for that frame pixel. -/
def Obligations.RasterOrder : Prop :=
  ∀ s : State, FrameInv s →
    (∀ j, s.cursor.toNat + j < s.w.toNat →
      (s.pixCount.toNat + j) / s.w.toNat = s.pixCount.toNat / s.w.toNat ∧
      (s.pixCount.toNat + j) % s.w.toNat = s.cursor.toNat + j) ∧
    ∀ (i : Instr) (t : State), s.phase = .decode → exec i s = .next t → t.phase = .decode →
      ∀ (j : Nat) (px : Pixel), (pixelRun i s)[j]? = some px →
        s.cursor.toNat + j < s.w.toNat ∧
        fbRead t (s.pixCount.toNat / s.w.toNat * s.w.toNat + (s.cursor.toNat + j)) = px

/-! ## The header step and the terminal check (spec/42_decoder.md) -/

/-- The header step, whole (R162, R163, R140): TruncatedHeader, then InvalidDimensions, both at position 0, or the frame
created from the two little-endian fields with RP at 8. -/
def Obligations.HeaderStep : Prop :=
  ∀ s : State, blockTurn s = true → s.phase = .header →
    let w := (inByte s 0).toNat + 256 * (inByte s 1).toNat
    let h := (inByte s 4).toNat + 256 * (inByte s 5).toNat
    let bad := w = 0 ∨ h = 0 ∨ w * h > s.fbCapacity ∨ 54 + h * ((3 * w + 3) / 4 * 4) > 0xFFFFFFFF
    (s.inLen.toNat < 8 →
      step s = .next { popHost s with phase := .fault, errCode := .truncatedHeader, errPos := 0 }) ∧
    (8 ≤ s.inLen.toNat → bad →
      step s = .next { popHost s with phase := .fault, errCode := .invalidDimensions, errPos := 0 }) ∧
    (8 ≤ s.inLen.toNat → ¬ bad →
      ∃ t, step s = .next t ∧
        t = { popHost s with w := t.w, h := t.h, rp := 8, cursor := 0, pixCount := 0, phase := .decode } ∧
        t.w.toNat = w ∧ t.h.toNat = h)

/-- The header bytes 2, 3, 6 and 7 are never read: any value is accepted (R99). -/
def Obligations.ReservedHeaderBytesIgnored : Prop :=
  ∀ (s t : State) (a : Nat) (v : Byte), a = 2 ∨ a = 3 ∨ a = 6 ∨ a = 7 →
    blockTurn s = true → s.phase = .header → step s = .next t →
    step { s with input := Memory.write s.input a v } = .next { t with input := Memory.write s.input a v }

/-- The terminal check, whole (R166): a complete frame goes to EMIT with its output's length; any other raises
IncompleteFrame at RP. The output's length fits its register (R163). -/
def Obligations.TerminalCheck : Prop :=
  ∀ s : State, blockTurn s = true → s.phase = .decode → s.inLen.toNat ≤ s.rp.toNat →
    outputLength s.w.toNat s.h.toNat ≤ 0xFFFFFFFF →
    (s.pixCount.toNat = s.w.toNat * s.h.toNat →
      ∃ t, step s = .next t ∧ t = { popHost s with outLen := t.outLen, outPos := 0, phase := .emit } ∧
        t.outLen.toNat = 54 + s.h.toNat * ((3 * s.w.toNat + 3) / 4 * 4)) ∧
    (s.pixCount.toNat ≠ s.w.toNat * s.h.toNat →
      step s = .next { popHost s with phase := .fault, errCode := .incompleteFrame, errPos := s.rp })

/-! ## The BMP serializer (spec/43_bmp_serializer.md) -/

/-- The stride and padding laws of R201, with its examples. -/
def Obligations.StrideLaws : Prop :=
  (∀ w, stride w = (3 * w + 3) / 4 * 4 ∧ stride w = 3 * w + w % 4 ∧ 4 ∣ stride w ∧ stride w - 3 * w = w % 4) ∧
  (∀ w h, outputLength w h = 54 + h * stride w) ∧
  stride 1 = 4 ∧ stride 2 = 8 ∧ stride 3 = 12 ∧ stride 4 = 12 ∧ stride 5 = 16

/-- The whole output has OUT_LEN bytes (R213), that is 54 and H rows of ceil(3W/4)*4 (R215). -/
def Obligations.OutputHasItsLength : Prop :=
  ∀ (w h : Nat) (fb : Nat → Pixel), (bmpBytes w h fb).length = 54 + h * ((3 * w + 3) / 4 * 4)

/-- The direct computation of an output byte gives the byte of the whole output (R213). -/
def Obligations.DirectByteIsOutputByte : Prop :=
  ∀ (w h : Nat) (fb : Nat → Pixel) (i : Nat), i < outputLength w h → (bmpBytes w h fb)[i]? = some (bmpByte w h fb i)

/-- The 54 header bytes of R203 and R204, field by field, with R205 to R209. -/
def Obligations.HeaderFields : Prop :=
  ∀ (w h : Nat) (fb : Nat → Pixel), w < 65536 → h < 65536 →
    let byte := fun (v k : Nat) => BitVec.ofNat 8 (v / 256 ^ k)
    let length := 54 + h * ((3 * w + 3) / 4 * 4)
    (bmpBytes w h fb).take 54 =
      [0x42, 0x4D, byte length 0, byte length 1, byte length 2, byte length 3, 0, 0, 0, 0, 0x36, 0, 0, 0,
        0x28, 0, 0, 0, byte w 0, byte w 1, 0, 0, byte h 0, byte h 1, 0, 0, 1, 0, 0x18, 0, 0, 0, 0, 0,
        byte (length - 54) 0, byte (length - 54) 1, byte (length - 54) 2, byte (length - 54) 3,
        0, 0, 0, 0, 0, 0, 0, 0, 0, 0, 0, 0, 0, 0, 0, 0]

/-- Rows are written bottom-up (R210), pixels left to right in the order blue, green, red (R211), then W mod 4 zero bytes
(R212). -/
def Obligations.RowsBottomUpAndPadded : Prop :=
  ∀ (w h : Nat) (fb : Nat → Pixel) (k : Nat), k < h →
    let start := 54 + k * ((3 * w + 3) / 4 * 4)
    (∀ col, col < w →
      (bmpBytes w h fb)[start + 3 * col]? = some (fb ((h - 1 - k) * w + col)).b ∧
      (bmpBytes w h fb)[start + 3 * col + 1]? = some (fb ((h - 1 - k) * w + col)).g ∧
      (bmpBytes w h fb)[start + 3 * col + 2]? = some (fb ((h - 1 - k) * w + col)).r) ∧
    ∀ p, p < w % 4 → (bmpBytes w h fb)[start + 3 * w + p]? = some 0

/-- The emit step, whole (R214): a refusal raises IoError at OUT_POS; an accepted byte is byte OUT_POS of the frame's
output, and the last one ends the run. The frame is complete and its store exists (R33). -/
def Obligations.EmitStep : Prop :=
  ∀ (s : State) (a : SinkAnswer) (rest : List HostMove), s.phase = .emit → s.host = .answer a :: rest →
    frameComplete s → s.outPos.toNat < s.outLen.toNat → s.w.toNat * s.h.toNat ≤ s.fbCapacity →
    (a = .refuse →
      step s = .next { popHost s with phase := .fault, errCode := .ioError, errPos := s.outPos }) ∧
    (a = .accept →
      ∃ b t, (outputBytes s)[s.outPos.toNat]? = some b ∧ step s = .next t ∧
        t = { popHost s with out := s.out ++ [b], outPos := t.outPos, phase := t.phase } ∧
        t.outPos.toNat = s.outPos.toNat + 1 ∧
        t.phase = if s.outPos.toNat + 1 = s.outLen.toNat then .done else .emit)

/-! ## Faults and phases (spec/60_exceptions.md, spec/10_state.md) -/

/-- Faults are precise (R233, R234), with the positions of R235: a step that ends in FAULT writes ERR_CODE, ERR_POS and
PHASE only, and each code comes from its step at its position. -/
def Obligations.FaultsArePrecise : Prop :=
  ∀ s t : State, step s = .next t → s.phase ≠ .fault → t.phase = .fault →
    t = { popHost s with phase := .fault, errCode := t.errCode, errPos := t.errPos } ∧
    match t.errCode with
    | .none => False
    | .truncatedHeader => s.phase = .header ∧ t.errPos = 0
    | .invalidDimensions => s.phase = .header ∧ t.errPos = 0
    | .truncatedOpcode => s.phase = .decode ∧ s.rp.toNat < s.inLen.toNat ∧ t.errPos = s.rp
    | .unrecognizedOpcode => s.phase = .decode ∧ s.rp.toNat < s.inLen.toNat ∧ t.errPos = s.rp
    | .rowOverrun => s.phase = .decode ∧ s.rp.toNat < s.inLen.toNat ∧ t.errPos = s.rp
    | .frameOverflow => s.phase = .decode ∧ s.rp.toNat < s.inLen.toNat ∧ t.errPos = s.rp
    | .incompleteFrame => s.phase = .decode ∧ t.errPos = s.rp ∧ (s.rp.toNat ≤ s.inLen.toNat → t.errPos = s.inLen)
    | .ioError => s.phase = .emit ∧ t.errPos = s.outPos

/-- The legal phase transitions are exactly those of R23's table. -/
def Obligations.PhaseTransitions : Prop :=
  ∀ p q : Phase, p ≠ q →
    ((∃ s t, step s = .next t ∧ s.phase = p ∧ t.phase = q) ↔ legalTransition p q)

/-- Each phase change is made by the event R23 names: HEADER by a start command, IDLE by reset, DONE by an accepted byte,
the others by the block's turn or a refusal. -/
def Obligations.PhaseChangeCauses : Prop :=
  ∀ s t : State, step s = .next t → s.phase ≠ t.phase →
    match t.phase with
    | .idle => s.host.head? = some .reset
    | .header => ∃ v : Word, s.host.head? = some (.write 0 v) ∧ v.getLsbD 0 = true
    | .decode => blockTurn s = true
    | .emit => blockTurn s = true
    | .done => s.host.head? = some (.answer .accept)
    | .fault => blockTurn s = true ∨ s.host.head? = some (.answer .refuse)

/-- The block has no step in a quiescent phase, and none in EMIT without the sink's answer (R161, R237, R70): its turn
there changes nothing; and a sink answer outside EMIT, where no byte is offered, changes nothing either. That such a turn
or answer is a step at all is the model's choice (log 6). -/
def Obligations.NoEnabledStepChangesNothing : Prop :=
  ∀ s : State,
    (blockTurn s = true → busy s.phase = false ∨ s.phase = .emit → step s = .next (popHost s)) ∧
    ∀ (a : SinkAnswer) (rest : List HostMove), s.host = .answer a :: rest → s.phase ≠ .emit →
      step s = .next (popHost s)

/-! ## The host's side (spec/10_state.md R37-R39, spec/42_decoder.md R160, spec/70_reset_and_hazards.md) -/

/-- The start command (R160): in a quiescent phase it clears the run registers, goes to HEADER and keeps UNPACK_MODE,
IN_LEN, the input and the store; in a busy phase it changes nothing. (fbEpoch is the model's own, log 2.) -/
def Obligations.StartCommand : Prop :=
  ∀ (s : State) (v : Word) (rest : List HostMove), s.host = .write 0 v :: rest → v.getLsbD 0 = true →
    (busy s.phase = false →
      ∃ t, step s = .next t ∧
        t = { popHost s with
          phase := .header, w := 0, h := 0, rp := 0, cursor := 0, pixCount := 0, errCode := .none, errPos := 0,
          outPos := 0, outLen := 0, fbEpoch := t.fbEpoch }) ∧
    (busy s.phase = true → step s = .next (popHost s))

/-- Reset (R260): in any phase, every register takes its reset value, every pixel becomes unspecified, and the input buffer
and the bytes the sink has accepted stay. The model's choices in it: an unspecified pixel is a free value of the counter
fbEpoch, which moves on (log 2), and the build's capacity is a field that stays (log 1). -/
def Obligations.ResetSetsEveryRegister : Prop :=
  ∀ (s : State) (rest : List HostMove), s.host = .reset :: rest →
    ∃ t, step s = .next t ∧ t.phase = .idle ∧ t.unpackMode = .compat ∧ t.inLen = 0 ∧ t.w = 0 ∧ t.h = 0 ∧ t.rp = 0 ∧
      t.cursor = 0 ∧ t.pixCount = 0 ∧ t.errCode = .none ∧ t.errPos = 0 ∧ t.outPos = 0 ∧ t.outLen = 0 ∧
      (∀ i, fbRead t i = Config.fbUnspecified t.fbEpoch i) ∧ t.fbEpoch ≠ s.fbEpoch ∧
      t.input = s.input ∧ t.out = s.out ∧ t.fbCapacity = s.fbCapacity ∧ t.host = rest

/-- The state after reset holds R40's values. What it holds in the model's own fields and in the host's buffers, and that
an entry of the store reads as a free value, is the model's (logs 1 to 5, 16). -/
def Obligations.ResetStateHoldsResetValues : Prop :=
  State.reset.phase = .idle ∧ State.reset.unpackMode = .compat ∧ State.reset.inLen = 0 ∧ State.reset.w = 0 ∧
  State.reset.h = 0 ∧ State.reset.rp = 0 ∧ State.reset.cursor = 0 ∧ State.reset.pixCount = 0 ∧
  State.reset.errCode = .none ∧ State.reset.errPos = 0 ∧ State.reset.outPos = 0 ∧ State.reset.outLen = 0 ∧
  readReg State.reset 0x03 = 0 ∧ 1 ≤ State.reset.fbCapacity

/-- Writes to CONFIG and IN_LEN take effect at once in a quiescent phase and are ignored in a busy one (R38). -/
def Obligations.ConfigurationWrites : Prop :=
  ∀ (s : State) (v : Word) (rest : List HostMove),
    (s.host = .write 1 v :: rest →
      (busy s.phase = false →
        step s = .next { popHost s with unpackMode := if v.toNat % 2 = 1 then .rgb555 else .compat }) ∧
      (busy s.phase = true → step s = .next (popHost s))) ∧
    (s.host = .write 2 v :: rest →
      (busy s.phase = false → step s = .next { popHost s with inLen := v }) ∧
      (busy s.phase = true → step s = .next (popHost s))) ∧
    (s.host = .write 0 v :: rest → busy s.phase = true → step s = .next (popHost s))

/-- Writes that do nothing (R37): a write of 0 to CTRL.START, whatever the other bits, and any write to a read-only or
absent register. -/
def Obligations.OtherRegisterWritesIgnored : Prop :=
  ∀ (s : State) (reg : Nat) (v : Word) (rest : List HostMove), s.host = .write reg v :: rest →
    3 ≤ reg ∨ reg = 0 ∧ v.toNat % 2 = 0 → step s = .next (popHost s)

/-- Host reads: each register's value as R37 lists it, STATUS in each phase (R22), each error's number (R230), 0 for CTRL
and above 0x0C; a read has no side effect (R39). That the value goes to the field readData is the model's choice (log 16). -/
def Obligations.RegisterReads : Prop :=
  ∀ (s : State) (reg : Nat) (rest : List HostMove), s.host = .read reg :: rest →
    ∃ v : Word, step s = .next { popHost s with readData := v } ∧
      (reg = 0 ∨ 0x0C < reg → v = 0) ∧
      (reg = 1 → v = if s.unpackMode = .compat then 0 else 1) ∧
      (reg = 2 → v = s.inLen) ∧
      (reg = 3 → v = match s.phase with
        | .idle => 0x00 | .header => 0x09 | .decode => 0x0A | .emit => 0x0B | .done => 0x14 | .fault => 0x15) ∧
      (reg = 4 → v = match s.errCode with
        | .none => 0 | .ioError => 1 | .truncatedHeader => 2 | .truncatedOpcode => 3 | .unrecognizedOpcode => 4
        | .incompleteFrame => 5 | .rowOverrun => 6 | .frameOverflow => 7 | .invalidDimensions => 8) ∧
      (reg = 5 → v = s.errPos) ∧ (reg = 6 → v = s.w) ∧ (reg = 7 → v = s.h) ∧ (reg = 8 → v = s.cursor) ∧
      (reg = 9 → v = s.pixCount) ∧ (reg = 10 → v = s.rp) ∧ (reg = 11 → v = s.outPos) ∧ (reg = 12 → v = s.outLen)

/-- Loading the input in a quiescent phase (R262 step 2, R60) puts the byte at its offset and changes no other byte and
nothing else. -/
def Obligations.LoadPlacesOneByte : Prop :=
  ∀ (s : State) (offset : Word) (b : Byte) (rest : List HostMove), s.host = .load offset b :: rest →
    busy s.phase = false → offset.toNat < 0xFFFFFFFF →
    ∃ t, step s = .next t ∧ t = { popHost s with input := t.input } ∧ inByte t offset.toNat = b ∧
      ∀ a, a ≠ offset.toNat → inByte t a = inByte s a

/-- Loads that stop (the model's stops, logs 7 and 8): in a busy phase the host has no such move (R270), and there is no
offset 2^32 - 1 (R6). -/
def Obligations.LoadStops : Prop :=
  ∀ (s : State) (offset : Word) (b : Byte) (rest : List HostMove), s.host = .load offset b :: rest →
    (busy s.phase = true → step s = .refused .inputLoadWhileBusy) ∧
    (busy s.phase = false → offset.toNat = 0xFFFFFFFF → step s = .fault .noInputOffset)

/-- A run's configuration and input are constant (R38, R76, R270): no step but reset changes UNPACK_MODE or IN_LEN in a
busy phase, and none changes the input. -/
def Obligations.RunKeepsItsConfiguration : Prop :=
  ∀ s t : State, step s = .next t → busy s.phase = true →
    t.input = s.input ∧
      (s.host.head? = some .reset ∨ t.unpackMode = s.unpackMode ∧ t.inLen = s.inLen)

/-- W and H change only by the header step, a start command or reset (R25). -/
def Obligations.DimensionsFixedForARun : Prop :=
  ∀ s t : State, step s = .next t → t.w ≠ s.w ∨ t.h ≠ s.h →
    (s.phase = .header ∧ t.phase = .decode) ∨ (busy s.phase = false ∧ t.phase = .header) ∨
      s.host.head? = some .reset

/-- Only an opcode's appends write the pixel store, past the entries already there (R28, R73): every other step but reset
leaves it as it was. -/
def Obligations.StoreIsAppendOnly : Prop :=
  ∀ s t : State, frameRegs s → step s = .next t → s.host.head? ≠ some .reset →
    t.fb = s.fb ∨
    (s.phase = .decode ∧ t.phase = .decode ∧ ∀ i, i < s.pixCount.toNat → cellsGet t.fb i = cellsGet s.fb i)

/-- RP never decreases during a run (R24): under the invariant, a step that begins and ends in a busy phase leaves it or
moves it forward, and never past IN_LEN. -/
def Obligations.ReadCursorOnlyAdvances : Prop :=
  ∀ s t : State, CoreInv s → step s = .next t → busy s.phase = true → busy t.phase = true →
    s.rp.toNat ≤ t.rp.toNat ∧ t.rp.toNat ≤ t.inLen.toNat

/-! ## Stops (logs 7 to 10) -/

/-- Where the opcodes stop, the model's own choice (log 9): an append past FB_CAPACITY, where R28 gives the store no
entry, faults by name; only a state with W * H above FB_CAPACITY, which no header step makes, gets there. -/
def Obligations.AppendPastTheStoreStops : Prop :=
  ∀ (s : State) (cnt : BitVec 5) (colors : List Color) (color : Color),
    (s.cursor.toNat + (cnt.toNat + 1) ≤ s.w.toNat → s.pixCount.toNat + (cnt.toNat + 1) ≤ s.w.toNat * s.h.toNat →
      s.fbCapacity < s.pixCount.toNat + (cnt.toNat + 1) →
      exec (.black cnt) s = .fault .noPixelEntry ∧
      (s.rp.toNat + 3 ≤ s.inLen.toNat → exec (.rep cnt color) s = .fault .noPixelEntry) ∧
      ((Instr.lit cnt colors).wf = true → s.rp.toNat + 1 + 2 * (cnt.toNat + 1) ≤ s.inLen.toNat →
        exec (.lit cnt colors) s = .fault .noPixelEntry)) ∧
    (s.pixCount.toNat + (s.w.toNat - s.cursor.toNat) ≤ s.w.toNat * s.h.toNat →
      s.fbCapacity < s.pixCount.toNat + (s.w.toNat - s.cursor.toNat) → exec (.nl cnt) s = .fault .noPixelEntry)

/-- Under the invariant the machine stops in two cases only, both loads of the input by the host (logs 7, 8): no opcode and
no step of the block ever faults or refuses. -/
def Obligations.OnlyHostLoadsStop : Prop :=
  ∀ s : State, CoreInv s →
    (∀ r, step s = .fault r → r = .noInputOffset ∧ ∃ b, s.host.head? = some (.load 0xFFFFFFFF b)) ∧
    (∀ r, step s = .refused r → r = .inputLoadWhileBusy ∧ busy s.phase = true ∧
      ∃ offset b, s.host.head? = some (.load offset b))

/-! ## Invariants (spec/10_state.md R33) -/

/-- The invariant holds after reset. -/
def Obligations.InvariantHoldsAtReset : Prop :=
  CoreInv State.reset ∧ StorageInv State.reset ∧ SinkInv State.reset

/-- Every step keeps the invariant (R33, with R24 to R27, R31, R32): from every state that has it, whatever the host
does. -/
def Obligations.EveryStepKeepsTheInvariant : Prop :=
  ∀ s t : State, CoreInv s → step s = .next t → CoreInv t

/-- Every step keeps the canonical form of the input buffer and of the pixel store. -/
def Obligations.EveryStepKeepsStorageCanonical : Prop :=
  ∀ s t : State, StorageInv s → step s = .next t → StorageInv t

/-- Every step keeps this: the sink's bytes end in the first OUT_POS bytes of the frame's output (R70, R195, R214). -/
def Obligations.EveryStepKeepsTheSinksBytes : Prop :=
  ∀ s t : State, CoreInv s → SinkInv s → step s = .next t → SinkInv t

/-- Where the model follows R38 and not R33 item 2 (log 11): in DONE a host write of IN_LEN below RP takes effect. -/
def Obligations.DoneLetsInLenFallBelowRp : Prop :=
  ∀ (s : State) (v : Word) (rest : List HostMove), s.phase = .done → s.host = .write 2 v :: rest →
    v.toNat < s.rp.toNat → ∃ t, step s = .next t ∧ t.phase = .done ∧ t.inLen.toNat < t.rp.toNat

/-! ## Whole runs (spec/42_decoder.md R195, spec/70_reset_and_hazards.md R281) -/

/-- Decoding ends (R195): the block left to itself in DECODE leaves it, for EMIT or FAULT, within one step for each unread
byte and one for the terminal check. -/
def Obligations.DecodingEnds : Prop :=
  ∀ s : State, CoreInv s → s.phase = .decode → s.host = [] →
    ∃ k t, k ≤ s.inLen.toNat - s.rp.toNat + 1 ∧ Host.Core.run Sys2Proof.core k s = .next t ∧
      (t.phase = .emit ∨ t.phase = .fault)

/-- A sink that accepts every byte gets the whole output (R195, R213, R214): exactly OUT_LEN - OUT_POS answers end the run
in DONE, and the sink then holds the rest of BmpBytes, in order; nothing else changes. -/
def Obligations.AcceptingSinkGetsTheOutput : Prop :=
  ∀ s : State, CoreInv s → s.phase = .emit →
    s.host = List.replicate (s.outLen.toNat - s.outPos.toNat) (.answer .accept) →
    Host.Core.run Sys2Proof.core (s.outLen.toNat - s.outPos.toNat) s =
      .next { s with
        phase := .done, outPos := s.outLen, host := []
        out := s.out ++ (outputBytes s).drop s.outPos.toNat }

/-- Every run ends (R195), whatever the host does but reset and the loads R270 forbids, within R195's and R281's counts of
steps, from HEADER 1 + (IN_LEN - 8) + 1 + OUT_LEN. A run still busy has taken fewer. One that has ended took no more, and one
that faulted took fewer. Counted by the stream's opcodes (R281), a run from HEADER to DONE takes exactly
1 + opcodes + 1 + OUT_LEN steps, with at most IN_LEN - 8 opcodes, and one to FAULT takes fewer. And the end is in reach: the
host need only let the block work and accept its bytes. (What a counted step is, and which OUT_LEN: DEDUCED, log 23.) -/
def Obligations.EveryRunEnds : Prop :=
  ∀ s : State, CoreInv s → busy s.phase = true →
    ((∀ m ∈ s.host, m ≠ .reset ∧ ∀ offset b, m ≠ .load offset b) →
      ∀ n, ∃ t, runState n s = .next t ∧
        (busy t.phase = true →
          runBlockSteps n s < decodingStepsLeft s + (t.outLen.toNat - s.outPos.toNat)) ∧
        (busy t.phase = false →
          RunEnded s.host s t ∧
          runBlockSteps n s ≤ decodingStepsLeft s + (t.outLen.toNat - s.outPos.toNat) ∧
          (t.phase = .fault →
            runBlockSteps n s < decodingStepsLeft s + (outputLength t.w.toNat t.h.toNat - s.outPos.toNat)) ∧
          (s.phase = .header →
            (∀ program, streamOpcodes s = some program → program.length ≤ s.inLen.toNat - 8) ∧
            (t.phase = .done → ∃ program, streamOpcodes s = some program ∧
              runBlockSteps n s = wholeRunSteps program.length t) ∧
            (t.phase = .fault → ∀ program, streamOpcodes s = some program →
              runBlockSteps n s < wholeRunSteps program.length t)))) ∧
    ∃ (moves : List HostMove) (t : State),
      (∀ m ∈ moves, m = .idle ∨ m = .answer .accept) ∧
      moves.length ≤ decodingStepsLeft s + (t.outLen.toNat - s.outPos.toNat) ∧
      Host.Core.run Sys2Proof.core moves.length { s with host := moves } = .next t ∧ RunEnded moves s t
end

