-- ==== Sys2Proof/Laws/Bmp.lean ====
section
/-!
SUPPORT. The lengths of the serializer's parts and the place of a byte in a row (spec/43_bmp_serializer.md R201-R212).
-/

namespace Sys2Proof.Machine

/-- The stride is the pixel bytes and `W mod 4` more (R201). -/
theorem stride_eq (w : Nat) : stride w = 3 * w + w % 4 := by
  unfold stride
  omega

/-- The header generator writes 54 bytes (R203, R204). -/
@[simp] theorem bmpHeader_length (w h : Nat) : (bmpHeader w h).length = 54 := by
  simp [bmpHeader, fileHeader, infoHeader, le32Bytes, le16Bytes]

/-- `n` pixels are `3n` bytes (R211). -/
theorem flatMap_pixelBytes_length (px : Nat → Pixel) (n : Nat) :
    ((List.range n).flatMap fun col => pixelBytes (px col)).length = 3 * n := by
  induction n with
  | zero => rfl
  | succ n ih =>
    rw [List.range_succ, List.flatMap_append, List.length_append, ih]
    simp [pixelBytes]
    omega

@[simp] theorem rowBytes_length (w : Nat) (fb : Nat → Pixel) (row : Nat) : (rowBytes w fb row).length = 3 * w :=
  flatMap_pixelBytes_length _ w

/-- An output row has the stride's length (R212). -/
@[simp] theorem paddedRow_length (w : Nat) (fb : Nat → Pixel) (row : Nat) : (paddedRow w fb row).length = stride w := by
  simp [paddedRow, stride_eq]

/-- `n` output rows have `n` strides (R210). -/
theorem flatMap_paddedRow_length (w : Nat) (fb : Nat → Pixel) (row : Nat → Nat) (n : Nat) :
    ((List.range n).flatMap fun k => paddedRow w fb (row k)).length = n * stride w := by
  induction n with
  | zero => simp
  | succ n ih =>
    rw [List.range_succ, List.flatMap_append, List.length_append, ih]
    simp [Nat.add_mul]

end Sys2Proof.Machine
end

