-- ==== Sys2Proof/Laws/Decode.lean ====
section
/-!
SUPPORT. The fields of the control byte, the bytes of a color, and what taking color operands answers.
-/

namespace Sys2Proof

@[simp] theorem ctrlTag_ctrlByte (tag : BitVec 3) (cnt : BitVec 5) : ctrlTag (ctrlByte tag cnt) = tag := by
  revert tag cnt; decide

@[simp] theorem ctrlCnt_ctrlByte (tag : BitVec 3) (cnt : BitVec 5) : ctrlCnt (ctrlByte tag cnt) = cnt := by
  revert tag cnt; decide

/-- A control byte is its two fields (R91). -/
theorem ctrlByte_fields (b : Byte) : ctrlByte (ctrlTag b) (ctrlCnt b) = b := by
  revert b; decide

theorem runCount_pos (cnt : BitVec 5) : 1 ≤ runCount cnt := by simp [runCount]

theorem runCount_le (cnt : BitVec 5) : runCount cnt ≤ 32 := by
  have := cnt.isLt
  simp only [runCount]
  omega

/-- The low byte then the high byte of a color read back as the color (R63, R64). -/
@[simp] theorem le16_bytes (c : Color) : le16 (c.extractLsb' 0 8) (c.extractLsb' 8 8) = c := by
  apply BitVec.eq_of_getLsbD_eq
  intro i hi
  simp only [le16, BitVec.getLsbD_append, BitVec.getLsbD_extractLsb']
  by_cases h : i < 8
  · simp [h]
  · simp [h, show i - 8 < 8 by omega, show 8 + (i - 8) = i by omega]

/-- The bytes of `lo | (hi << 8)` are `lo` and `hi` (R63, R64). -/
@[simp] theorem colorBytes_le16 (lo hi : Byte) : colorBytes (le16 lo hi) = [lo, hi] := by
  simp only [colorBytes, le16, List.cons.injEq, and_true]
  constructor <;> apply BitVec.eq_of_getLsbD_eq <;> intro i h <;>
    rw [BitVec.getLsbD_extractLsb', BitVec.getLsbD_append] <;> simp [h]

@[simp] theorem colorBytes_length (c : Color) : (colorBytes c).length = 2 := rfl

theorem flatMap_colorBytes_length (colors : List Color) : (colors.flatMap colorBytes).length = 2 * colors.length := by
  induction colors with
  | nil => rfl
  | cons c colors ih => simp [List.flatMap_cons, ih]; omega

/-- Taking as many colors as there are color encodings gives them back (R93). -/
@[simp] theorem takeColors_flatMap (colors : List Color) (rest : List Byte) :
    takeColors colors.length (colors.flatMap colorBytes ++ rest) = some (colors, rest) := by
  induction colors with
  | nil => rfl
  | cons c colors ih => simp [List.flatMap_cons, colorBytes, takeColors, ih]

/-- All that taking `n` colors can answer: `n` of them whose bytes stand first, or nothing, for want of bytes. -/
theorem takeColors_cases (n : Nat) (bytes : List Byte) :
    (∃ colors rest, takeColors n bytes = some (colors, rest) ∧ colors.length = n ∧
      bytes = colors.flatMap colorBytes ++ rest) ∨
    (takeColors n bytes = none ∧ bytes.length < 2 * n) := by
  induction n generalizing bytes with
  | zero => exact .inl ⟨[], bytes, rfl, rfl, rfl⟩
  | succ n ih =>
    match bytes with
    | [] => exact .inr ⟨rfl, by simp⟩
    | [_] => exact .inr ⟨rfl, by simp; omega⟩
    | lo :: hi :: bytes =>
      rcases ih bytes with ⟨colors, rest, h, hl, hb⟩ | ⟨h, hl⟩
      · exact .inl ⟨le16 lo hi :: colors, rest, by simp [takeColors, h], by simp [hl],
          by simp [List.flatMap_cons, ← hb]⟩
      · exact .inr ⟨by simp [takeColors, h], by simp; omega⟩

/-! ## Decoding one opcode -/

/-- The three bits the decoder looks at are the tag's (R91). -/
theorem ctrlByte_tagBits (tag : BitVec 3) (cnt : BitVec 5) :
    (ctrlByte tag cnt).getLsbD 7 = tag.getLsbD 2 ∧ (ctrlByte tag cnt).getLsbD 6 = tag.getLsbD 1 ∧
      (ctrlByte tag cnt).getLsbD 5 = tag.getLsbD 0 := by
  revert tag cnt; decide

/-- Decoding by the two fields of the control byte (R96): the tag selects the opcode. -/
theorem decodeOpcode_ctrlByte (tag : BitVec 3) (cnt : BitVec 5) (bytes : List Byte) :
    decodeOpcode (ctrlByte tag cnt) bytes =
      match tag.getLsbD 2, tag.getLsbD 1, tag.getLsbD 0 with
      | false, false, false =>
        match takeColors (runCount cnt) bytes with
        | some (colors, rest) => some (.lit cnt colors, rest)
        | none => none
      | false, false, true => some (.black cnt, bytes)
      | false, true, false =>
        match bytes with
        | lo :: hi :: rest => some (.rep cnt (le16 lo hi), rest)
        | [_] => none
        | [] => none
      | false, true, true => some (.illegal011 cnt, bytes)
      | true, false, false => some (.nl cnt, bytes)
      | true, false, true => some (.illegal101 cnt, bytes)
      | true, true, false => some (.illegal110 cnt, bytes)
      | true, true, true => some (.illegal111 cnt, bytes) := by
  obtain ⟨h7, h6, h5⟩ := ctrlByte_tagBits tag cnt
  rw [decodeOpcode.eq_def, h7, h6, h5, ctrlCnt_ctrlByte]
  all_goals rfl

@[simp] theorem decodeOpcode_lit (cnt : BitVec 5) (bytes : List Byte) :
    decodeOpcode (ctrlByte 0b000 cnt) bytes =
      match takeColors (runCount cnt) bytes with
      | some (colors, rest) => some (.lit cnt colors, rest)
      | none => none := decodeOpcode_ctrlByte 0b000 cnt bytes

@[simp] theorem decodeOpcode_black (cnt : BitVec 5) (bytes : List Byte) :
    decodeOpcode (ctrlByte 0b001 cnt) bytes = some (.black cnt, bytes) := decodeOpcode_ctrlByte 0b001 cnt bytes

@[simp] theorem decodeOpcode_rep (cnt : BitVec 5) (bytes : List Byte) :
    decodeOpcode (ctrlByte 0b010 cnt) bytes =
      match bytes with
      | lo :: hi :: rest => some (.rep cnt (le16 lo hi), rest)
      | [_] => none
      | [] => none := decodeOpcode_ctrlByte 0b010 cnt bytes

@[simp] theorem decodeOpcode_nl (cnt : BitVec 5) (bytes : List Byte) :
    decodeOpcode (ctrlByte 0b100 cnt) bytes = some (.nl cnt, bytes) := decodeOpcode_ctrlByte 0b100 cnt bytes

@[simp] theorem decodeOpcode_illegal011 (cnt : BitVec 5) (bytes : List Byte) :
    decodeOpcode (ctrlByte 0b011 cnt) bytes = some (.illegal011 cnt, bytes) := decodeOpcode_ctrlByte 0b011 cnt bytes

@[simp] theorem decodeOpcode_illegal101 (cnt : BitVec 5) (bytes : List Byte) :
    decodeOpcode (ctrlByte 0b101 cnt) bytes = some (.illegal101 cnt, bytes) := decodeOpcode_ctrlByte 0b101 cnt bytes

@[simp] theorem decodeOpcode_illegal110 (cnt : BitVec 5) (bytes : List Byte) :
    decodeOpcode (ctrlByte 0b110 cnt) bytes = some (.illegal110 cnt, bytes) := decodeOpcode_ctrlByte 0b110 cnt bytes

@[simp] theorem decodeOpcode_illegal111 (cnt : BitVec 5) (bytes : List Byte) :
    decodeOpcode (ctrlByte 0b111 cnt) bytes = some (.illegal111 cnt, bytes) := decodeOpcode_ctrlByte 0b111 cnt bytes

/-- A control byte has one of the eight tags (R96). -/
theorem ctrlByte_tag_cases (b : Byte) :
    ∃ cnt : BitVec 5, b = ctrlByte 0b000 cnt ∨ b = ctrlByte 0b001 cnt ∨ b = ctrlByte 0b010 cnt ∨
      b = ctrlByte 0b011 cnt ∨ b = ctrlByte 0b100 cnt ∨ b = ctrlByte 0b101 cnt ∨ b = ctrlByte 0b110 cnt ∨
      b = ctrlByte 0b111 cnt := by
  have htag : ∀ t : BitVec 3, t = 0b000 ∨ t = 0b001 ∨ t = 0b010 ∨ t = 0b011 ∨ t = 0b100 ∨ t = 0b101 ∨ t = 0b110 ∨
      t = 0b111 := by decide
  have hb := (ctrlByte_fields b).symm
  refine ⟨ctrlCnt b, ?_⟩
  generalize ctrlCnt b = cnt at hb
  rcases htag (ctrlTag b) with h | h | h | h | h | h | h | h <;> rw [h] at hb <;> subst hb <;> tauto

end Sys2Proof
end

