-- ==== Sys2Proof/Laws/Memory.lean ====
section
/-!
SUPPORT. What the sparse storage does: read after write, everything else unchanged, the canonical form kept.
-/

namespace Sys2Proof.Machine

variable {α : Type}

/-! ## Cells -/

@[simp] theorem cellsGet_set_same (cells : List (Nat × α)) (a : Nat) (v : α) :
    cellsGet (cellsSet cells a v) a = some v := by
  induction cells with
  | nil => simp [cellsSet, cellsGet]
  | cons c cells ih =>
    obtain ⟨k, x⟩ := c
    simp only [cellsSet]
    split
    · simp [cellsGet]
    · split
      · simp [cellsGet]
      · simp only [cellsGet]
        rw [if_neg (by omega), ih]

theorem cellsGet_set_other (cells : List (Nat × α)) {a b : Nat} (v : α) (h : b ≠ a) :
    cellsGet (cellsSet cells a v) b = cellsGet cells b := by
  induction cells with
  | nil => simp [cellsSet, cellsGet, h.symm]
  | cons c cells ih =>
    obtain ⟨k, x⟩ := c
    simp only [cellsSet]
    split
    · simp [cellsGet, h.symm]
    · split
      · simp only [cellsGet]
        rw [if_neg (by omega), if_neg (by omega)]
      · simp only [cellsGet, ih]

@[simp] theorem cellsGet_erase_same (cells : List (Nat × α)) (a : Nat) : cellsGet (cellsErase cells a) a = none := by
  induction cells with
  | nil => rfl
  | cons c cells ih =>
    obtain ⟨k, x⟩ := c
    simp only [cellsErase]
    split
    · exact ih
    · simp only [cellsGet]
      rw [if_neg (by assumption), ih]

theorem cellsGet_erase_other (cells : List (Nat × α)) {a b : Nat} (h : b ≠ a) :
    cellsGet (cellsErase cells a) b = cellsGet cells b := by
  induction cells with
  | nil => rfl
  | cons c cells ih =>
    obtain ⟨k, x⟩ := c
    simp only [cellsErase]
    split
    · rw [ih, cellsGet, if_neg (by omega)]
    · simp only [cellsGet, ih]

/-- Rising, said of a head and its tail: every listed address of the tail lies above the head's. -/
theorem cellsRising_cons (k : Nat) (x : α) (cells : List (Nat × α)) :
    cellsRising ((k, x) :: cells) = true ↔ (∀ c ∈ cells, k < c.1) ∧ cellsRising cells = true := by
  induction cells generalizing k x with
  | nil => simp [cellsRising]
  | cons c cells ih =>
    obtain ⟨k', x'⟩ := c
    simp only [cellsRising, Bool.and_eq_true, decide_eq_true_eq]
    constructor
    · rintro ⟨hk, hr⟩
      refine ⟨?_, hr⟩
      intro c hc
      rcases List.mem_cons.1 hc with rfl | hc
      · exact hk
      · exact lt_trans hk (((ih k' x').1 hr).1 c hc)
    · rintro ⟨hall, hr⟩
      exact ⟨hall (k', x') (List.mem_cons_self ..), hr⟩

theorem cellsSet_mem {cells : List (Nat × α)} {a : Nat} {v : α} {c : Nat × α} (h : c ∈ cellsSet cells a v) :
    c = (a, v) ∨ c ∈ cells := by
  induction cells with
  | nil => simpa [cellsSet] using h
  | cons d cells ih =>
    obtain ⟨k, x⟩ := d
    simp only [cellsSet] at h
    split at h
    · simpa using h
    · split at h
      · rcases List.mem_cons.1 h with h | h
        · exact .inl h
        · exact .inr (List.mem_cons_of_mem _ h)
      · rcases List.mem_cons.1 h with h | h
        · exact .inr (by simp [h])
        · exact (ih h).imp id (List.mem_cons_of_mem _)

theorem cellsErase_mem {cells : List (Nat × α)} {a : Nat} {c : Nat × α} (h : c ∈ cellsErase cells a) : c ∈ cells := by
  induction cells with
  | nil => simp [cellsErase] at h
  | cons d cells ih =>
    obtain ⟨k, x⟩ := d
    simp only [cellsErase] at h
    split at h
    · exact List.mem_cons_of_mem _ (ih h)
    · rcases List.mem_cons.1 h with h | h
      · simp [h]
      · exact List.mem_cons_of_mem _ (ih h)

theorem cellsSet_rising {cells : List (Nat × α)} (a : Nat) (v : α) (h : cellsRising cells = true) :
    cellsRising (cellsSet cells a v) = true := by
  induction cells with
  | nil => rfl
  | cons c cells ih =>
    obtain ⟨k, x⟩ := c
    have hc := (cellsRising_cons k x cells).1 h
    simp only [cellsSet]
    split
    · rw [cellsRising_cons]
      refine ⟨?_, h⟩
      intro c hm
      rcases List.mem_cons.1 hm with rfl | hm
      · assumption
      · exact lt_trans ‹a < k› (hc.1 c hm)
    · split
      · subst ‹a = k›
        exact (cellsRising_cons _ _ _).2 hc
      · rw [cellsRising_cons]
        refine ⟨?_, ih hc.2⟩
        intro c hm
        rcases cellsSet_mem hm with rfl | hm
        · simp; omega
        · exact hc.1 c hm

theorem cellsErase_rising {cells : List (Nat × α)} (a : Nat) (h : cellsRising cells = true) :
    cellsRising (cellsErase cells a) = true := by
  induction cells with
  | nil => rfl
  | cons c cells ih =>
    obtain ⟨k, x⟩ := c
    have hc := (cellsRising_cons k x cells).1 h
    simp only [cellsErase]
    split
    · exact ih hc.2
    · exact (cellsRising_cons _ _ _).2 ⟨fun c hm => hc.1 c (cellsErase_mem hm), ih hc.2⟩

/-! ## The input buffer -/

@[simp] theorem Memory.read_write_same (m : Memory) (a : Nat) (v : Byte) : Memory.read (Memory.write m a v) a = v := by
  unfold Memory.read Memory.write
  split
  · simp [*]
  · simp

theorem Memory.read_write_other (m : Memory) {a b : Nat} (v : Byte) (h : b ≠ a) :
    Memory.read (Memory.write m a v) b = Memory.read m b := by
  unfold Memory.read Memory.write
  split
  · rw [cellsGet_erase_other _ h]
  · rw [cellsGet_set_other _ _ h]

theorem Memory.write_wf {m : Memory} {a : Nat} (v : Byte) (ha : a < Config.inputSpace) (h : Memory.wf m = true) :
    Memory.wf (Memory.write m a v) = true := by
  simp only [Memory.wf, Bool.and_eq_true, List.all_eq_true, decide_eq_true_eq] at h ⊢
  unfold Memory.write
  split
  · exact ⟨cellsErase_rising a h.1, fun c hc => h.2 c (cellsErase_mem hc)⟩
  · refine ⟨cellsSet_rising a v h.1, fun c hc => ?_⟩
    rcases cellsSet_mem hc with rfl | hc
    · exact ⟨ha, by assumption⟩
    · exact h.2 c hc

theorem Memory.read_writeSeq_below (bytes : List Byte) (m : Memory) {a b : Nat} (h : b < a) :
    Memory.read (Memory.writeSeq m a bytes) b = Memory.read m b := by
  induction bytes generalizing m a with
  | nil => rfl
  | cons x bytes ih => rw [Memory.writeSeq, ih _ (by omega), Memory.read_write_other _ _ (by omega)]

theorem Memory.writeSeq_wf (bytes : List Byte) {m : Memory} {a : Nat} (ha : a + bytes.length ≤ Config.inputSpace)
    (h : Memory.wf m = true) : Memory.wf (Memory.writeSeq m a bytes) = true := by
  induction bytes generalizing m a with
  | nil => exact h
  | cons x bytes ih =>
    simp only [List.length_cons] at ha
    exact ih (by omega) (Memory.write_wf x (by omega) h)

/-! ## The pixel store -/

theorem PixelStore.set_wf {fb : PixelStore} {capacity a : Nat} (px : Pixel) (ha : a < capacity)
    (h : PixelStore.wf capacity fb = true) : PixelStore.wf capacity (cellsSet fb a px) = true := by
  simp only [PixelStore.wf, Bool.and_eq_true, List.all_eq_true, decide_eq_true_eq] at h ⊢
  refine ⟨cellsSet_rising a px h.1, fun c hc => ?_⟩
  rcases cellsSet_mem hc with rfl | hc
  · exact ha
  · exact h.2 c hc

end Sys2Proof.Machine
end

