-- ==== Sys2Proof/Laws/State.lean ====
section
/-!
SUPPORT. The fields of State under each of its updates: one lemma per field per update, true by rfl.
-/

namespace Sys2Proof.Machine

/-! ## raiseFault -/

@[simp] theorem raiseFault_phase (code : ErrCode) (pos : Word) (s : State) : (raiseFault code pos s).phase = .fault := rfl
@[simp] theorem raiseFault_rp (code : ErrCode) (pos : Word) (s : State) : (raiseFault code pos s).rp = s.rp := rfl
@[simp] theorem raiseFault_w (code : ErrCode) (pos : Word) (s : State) : (raiseFault code pos s).w = s.w := rfl
@[simp] theorem raiseFault_h (code : ErrCode) (pos : Word) (s : State) : (raiseFault code pos s).h = s.h := rfl
@[simp] theorem raiseFault_cursor (code : ErrCode) (pos : Word) (s : State) : (raiseFault code pos s).cursor = s.cursor := rfl
@[simp] theorem raiseFault_pixCount (code : ErrCode) (pos : Word) (s : State) : (raiseFault code pos s).pixCount = s.pixCount := rfl
@[simp] theorem raiseFault_fb (code : ErrCode) (pos : Word) (s : State) : (raiseFault code pos s).fb = s.fb := rfl
@[simp] theorem raiseFault_unpackMode (code : ErrCode) (pos : Word) (s : State) : (raiseFault code pos s).unpackMode = s.unpackMode := rfl
@[simp] theorem raiseFault_inLen (code : ErrCode) (pos : Word) (s : State) : (raiseFault code pos s).inLen = s.inLen := rfl
@[simp] theorem raiseFault_errCode (code : ErrCode) (pos : Word) (s : State) : (raiseFault code pos s).errCode = code := rfl
@[simp] theorem raiseFault_errPos (code : ErrCode) (pos : Word) (s : State) : (raiseFault code pos s).errPos = pos := rfl
@[simp] theorem raiseFault_outLen (code : ErrCode) (pos : Word) (s : State) : (raiseFault code pos s).outLen = s.outLen := rfl
@[simp] theorem raiseFault_outPos (code : ErrCode) (pos : Word) (s : State) : (raiseFault code pos s).outPos = s.outPos := rfl
@[simp] theorem raiseFault_fbCapacity (code : ErrCode) (pos : Word) (s : State) : (raiseFault code pos s).fbCapacity = s.fbCapacity := rfl
@[simp] theorem raiseFault_input (code : ErrCode) (pos : Word) (s : State) : (raiseFault code pos s).input = s.input := rfl
@[simp] theorem raiseFault_out (code : ErrCode) (pos : Word) (s : State) : (raiseFault code pos s).out = s.out := rfl
@[simp] theorem raiseFault_host (code : ErrCode) (pos : Word) (s : State) : (raiseFault code pos s).host = s.host := rfl
@[simp] theorem raiseFault_readData (code : ErrCode) (pos : Word) (s : State) : (raiseFault code pos s).readData = s.readData := rfl
@[simp] theorem raiseFault_fbEpoch (code : ErrCode) (pos : Word) (s : State) : (raiseFault code pos s).fbEpoch = s.fbEpoch := rfl

/-! ## fbCreate -/

@[simp] theorem fbCreate_phase (w h : Word) (s : State) : (fbCreate w h s).phase = s.phase := rfl
@[simp] theorem fbCreate_rp (w h : Word) (s : State) : (fbCreate w h s).rp = s.rp := rfl
@[simp] theorem fbCreate_w (w h : Word) (s : State) : (fbCreate w h s).w = w := rfl
@[simp] theorem fbCreate_h (w h : Word) (s : State) : (fbCreate w h s).h = h := rfl
@[simp] theorem fbCreate_cursor (w h : Word) (s : State) : (fbCreate w h s).cursor = 0 := rfl
@[simp] theorem fbCreate_pixCount (w h : Word) (s : State) : (fbCreate w h s).pixCount = 0 := rfl
@[simp] theorem fbCreate_fb (w h : Word) (s : State) : (fbCreate w h s).fb = s.fb := rfl
@[simp] theorem fbCreate_unpackMode (w h : Word) (s : State) : (fbCreate w h s).unpackMode = s.unpackMode := rfl
@[simp] theorem fbCreate_inLen (w h : Word) (s : State) : (fbCreate w h s).inLen = s.inLen := rfl
@[simp] theorem fbCreate_errCode (w h : Word) (s : State) : (fbCreate w h s).errCode = s.errCode := rfl
@[simp] theorem fbCreate_errPos (w h : Word) (s : State) : (fbCreate w h s).errPos = s.errPos := rfl
@[simp] theorem fbCreate_outLen (w h : Word) (s : State) : (fbCreate w h s).outLen = s.outLen := rfl
@[simp] theorem fbCreate_outPos (w h : Word) (s : State) : (fbCreate w h s).outPos = s.outPos := rfl
@[simp] theorem fbCreate_fbCapacity (w h : Word) (s : State) : (fbCreate w h s).fbCapacity = s.fbCapacity := rfl
@[simp] theorem fbCreate_input (w h : Word) (s : State) : (fbCreate w h s).input = s.input := rfl
@[simp] theorem fbCreate_out (w h : Word) (s : State) : (fbCreate w h s).out = s.out := rfl
@[simp] theorem fbCreate_host (w h : Word) (s : State) : (fbCreate w h s).host = s.host := rfl
@[simp] theorem fbCreate_readData (w h : Word) (s : State) : (fbCreate w h s).readData = s.readData := rfl
@[simp] theorem fbCreate_fbEpoch (w h : Word) (s : State) : (fbCreate w h s).fbEpoch = s.fbEpoch := rfl

/-! ## fbAppend -/

@[simp] theorem fbAppend_phase (px : Pixel) (s : State) : (fbAppend px s).phase = s.phase := rfl
@[simp] theorem fbAppend_rp (px : Pixel) (s : State) : (fbAppend px s).rp = s.rp := rfl
@[simp] theorem fbAppend_w (px : Pixel) (s : State) : (fbAppend px s).w = s.w := rfl
@[simp] theorem fbAppend_h (px : Pixel) (s : State) : (fbAppend px s).h = s.h := rfl
@[simp] theorem fbAppend_cursor (px : Pixel) (s : State) : (fbAppend px s).cursor = s.cursor := rfl
@[simp] theorem fbAppend_pixCount (px : Pixel) (s : State) : (fbAppend px s).pixCount = s.pixCount + 1 := rfl
@[simp] theorem fbAppend_fb (px : Pixel) (s : State) : (fbAppend px s).fb = cellsSet s.fb s.pixCount.toNat px := rfl
@[simp] theorem fbAppend_unpackMode (px : Pixel) (s : State) : (fbAppend px s).unpackMode = s.unpackMode := rfl
@[simp] theorem fbAppend_inLen (px : Pixel) (s : State) : (fbAppend px s).inLen = s.inLen := rfl
@[simp] theorem fbAppend_errCode (px : Pixel) (s : State) : (fbAppend px s).errCode = s.errCode := rfl
@[simp] theorem fbAppend_errPos (px : Pixel) (s : State) : (fbAppend px s).errPos = s.errPos := rfl
@[simp] theorem fbAppend_outLen (px : Pixel) (s : State) : (fbAppend px s).outLen = s.outLen := rfl
@[simp] theorem fbAppend_outPos (px : Pixel) (s : State) : (fbAppend px s).outPos = s.outPos := rfl
@[simp] theorem fbAppend_fbCapacity (px : Pixel) (s : State) : (fbAppend px s).fbCapacity = s.fbCapacity := rfl
@[simp] theorem fbAppend_input (px : Pixel) (s : State) : (fbAppend px s).input = s.input := rfl
@[simp] theorem fbAppend_out (px : Pixel) (s : State) : (fbAppend px s).out = s.out := rfl
@[simp] theorem fbAppend_host (px : Pixel) (s : State) : (fbAppend px s).host = s.host := rfl
@[simp] theorem fbAppend_readData (px : Pixel) (s : State) : (fbAppend px s).readData = s.readData := rfl
@[simp] theorem fbAppend_fbEpoch (px : Pixel) (s : State) : (fbAppend px s).fbEpoch = s.fbEpoch := rfl

/-! ## moveCursor -/

@[simp] theorem moveCursor_phase (n : Nat) (s : State) : (moveCursor n s).phase = s.phase := rfl
@[simp] theorem moveCursor_rp (n : Nat) (s : State) : (moveCursor n s).rp = s.rp := rfl
@[simp] theorem moveCursor_w (n : Nat) (s : State) : (moveCursor n s).w = s.w := rfl
@[simp] theorem moveCursor_h (n : Nat) (s : State) : (moveCursor n s).h = s.h := rfl
@[simp] theorem moveCursor_cursor (n : Nat) (s : State) : (moveCursor n s).cursor = s.cursor + BitVec.ofNat 32 n := rfl
@[simp] theorem moveCursor_pixCount (n : Nat) (s : State) : (moveCursor n s).pixCount = s.pixCount := rfl
@[simp] theorem moveCursor_fb (n : Nat) (s : State) : (moveCursor n s).fb = s.fb := rfl
@[simp] theorem moveCursor_unpackMode (n : Nat) (s : State) : (moveCursor n s).unpackMode = s.unpackMode := rfl
@[simp] theorem moveCursor_inLen (n : Nat) (s : State) : (moveCursor n s).inLen = s.inLen := rfl
@[simp] theorem moveCursor_errCode (n : Nat) (s : State) : (moveCursor n s).errCode = s.errCode := rfl
@[simp] theorem moveCursor_errPos (n : Nat) (s : State) : (moveCursor n s).errPos = s.errPos := rfl
@[simp] theorem moveCursor_outLen (n : Nat) (s : State) : (moveCursor n s).outLen = s.outLen := rfl
@[simp] theorem moveCursor_outPos (n : Nat) (s : State) : (moveCursor n s).outPos = s.outPos := rfl
@[simp] theorem moveCursor_fbCapacity (n : Nat) (s : State) : (moveCursor n s).fbCapacity = s.fbCapacity := rfl
@[simp] theorem moveCursor_input (n : Nat) (s : State) : (moveCursor n s).input = s.input := rfl
@[simp] theorem moveCursor_out (n : Nat) (s : State) : (moveCursor n s).out = s.out := rfl
@[simp] theorem moveCursor_host (n : Nat) (s : State) : (moveCursor n s).host = s.host := rfl
@[simp] theorem moveCursor_readData (n : Nat) (s : State) : (moveCursor n s).readData = s.readData := rfl
@[simp] theorem moveCursor_fbEpoch (n : Nat) (s : State) : (moveCursor n s).fbEpoch = s.fbEpoch := rfl

/-! ## homeCursor -/

@[simp] theorem homeCursor_phase (s : State) : (homeCursor s).phase = s.phase := rfl
@[simp] theorem homeCursor_rp (s : State) : (homeCursor s).rp = s.rp := rfl
@[simp] theorem homeCursor_w (s : State) : (homeCursor s).w = s.w := rfl
@[simp] theorem homeCursor_h (s : State) : (homeCursor s).h = s.h := rfl
@[simp] theorem homeCursor_cursor (s : State) : (homeCursor s).cursor = 0 := rfl
@[simp] theorem homeCursor_pixCount (s : State) : (homeCursor s).pixCount = s.pixCount := rfl
@[simp] theorem homeCursor_fb (s : State) : (homeCursor s).fb = s.fb := rfl
@[simp] theorem homeCursor_unpackMode (s : State) : (homeCursor s).unpackMode = s.unpackMode := rfl
@[simp] theorem homeCursor_inLen (s : State) : (homeCursor s).inLen = s.inLen := rfl
@[simp] theorem homeCursor_errCode (s : State) : (homeCursor s).errCode = s.errCode := rfl
@[simp] theorem homeCursor_errPos (s : State) : (homeCursor s).errPos = s.errPos := rfl
@[simp] theorem homeCursor_outLen (s : State) : (homeCursor s).outLen = s.outLen := rfl
@[simp] theorem homeCursor_outPos (s : State) : (homeCursor s).outPos = s.outPos := rfl
@[simp] theorem homeCursor_fbCapacity (s : State) : (homeCursor s).fbCapacity = s.fbCapacity := rfl
@[simp] theorem homeCursor_input (s : State) : (homeCursor s).input = s.input := rfl
@[simp] theorem homeCursor_out (s : State) : (homeCursor s).out = s.out := rfl
@[simp] theorem homeCursor_host (s : State) : (homeCursor s).host = s.host := rfl
@[simp] theorem homeCursor_readData (s : State) : (homeCursor s).readData = s.readData := rfl
@[simp] theorem homeCursor_fbEpoch (s : State) : (homeCursor s).fbEpoch = s.fbEpoch := rfl

/-! ## advanceRp -/

@[simp] theorem advanceRp_phase (len : Nat) (s : State) : (advanceRp len s).phase = s.phase := rfl
@[simp] theorem advanceRp_rp (len : Nat) (s : State) : (advanceRp len s).rp = s.rp + BitVec.ofNat 32 len := rfl
@[simp] theorem advanceRp_w (len : Nat) (s : State) : (advanceRp len s).w = s.w := rfl
@[simp] theorem advanceRp_h (len : Nat) (s : State) : (advanceRp len s).h = s.h := rfl
@[simp] theorem advanceRp_cursor (len : Nat) (s : State) : (advanceRp len s).cursor = s.cursor := rfl
@[simp] theorem advanceRp_pixCount (len : Nat) (s : State) : (advanceRp len s).pixCount = s.pixCount := rfl
@[simp] theorem advanceRp_fb (len : Nat) (s : State) : (advanceRp len s).fb = s.fb := rfl
@[simp] theorem advanceRp_unpackMode (len : Nat) (s : State) : (advanceRp len s).unpackMode = s.unpackMode := rfl
@[simp] theorem advanceRp_inLen (len : Nat) (s : State) : (advanceRp len s).inLen = s.inLen := rfl
@[simp] theorem advanceRp_errCode (len : Nat) (s : State) : (advanceRp len s).errCode = s.errCode := rfl
@[simp] theorem advanceRp_errPos (len : Nat) (s : State) : (advanceRp len s).errPos = s.errPos := rfl
@[simp] theorem advanceRp_outLen (len : Nat) (s : State) : (advanceRp len s).outLen = s.outLen := rfl
@[simp] theorem advanceRp_outPos (len : Nat) (s : State) : (advanceRp len s).outPos = s.outPos := rfl
@[simp] theorem advanceRp_fbCapacity (len : Nat) (s : State) : (advanceRp len s).fbCapacity = s.fbCapacity := rfl
@[simp] theorem advanceRp_input (len : Nat) (s : State) : (advanceRp len s).input = s.input := rfl
@[simp] theorem advanceRp_out (len : Nat) (s : State) : (advanceRp len s).out = s.out := rfl
@[simp] theorem advanceRp_host (len : Nat) (s : State) : (advanceRp len s).host = s.host := rfl
@[simp] theorem advanceRp_readData (len : Nat) (s : State) : (advanceRp len s).readData = s.readData := rfl
@[simp] theorem advanceRp_fbEpoch (len : Nat) (s : State) : (advanceRp len s).fbEpoch = s.fbEpoch := rfl

/-! ## acceptHeader -/

@[simp] theorem acceptHeader_phase (w h : Color) (s : State) : (acceptHeader w h s).phase = .decode := rfl
@[simp] theorem acceptHeader_rp (w h : Color) (s : State) : (acceptHeader w h s).rp = 8 := rfl
@[simp] theorem acceptHeader_w (w h : Color) (s : State) : (acceptHeader w h s).w = w.setWidth 32 := rfl
@[simp] theorem acceptHeader_h (w h : Color) (s : State) : (acceptHeader w h s).h = h.setWidth 32 := rfl
@[simp] theorem acceptHeader_cursor (w h : Color) (s : State) : (acceptHeader w h s).cursor = 0 := rfl
@[simp] theorem acceptHeader_pixCount (w h : Color) (s : State) : (acceptHeader w h s).pixCount = 0 := rfl
@[simp] theorem acceptHeader_fb (w h : Color) (s : State) : (acceptHeader w h s).fb = s.fb := rfl
@[simp] theorem acceptHeader_unpackMode (w h : Color) (s : State) : (acceptHeader w h s).unpackMode = s.unpackMode := rfl
@[simp] theorem acceptHeader_inLen (w h : Color) (s : State) : (acceptHeader w h s).inLen = s.inLen := rfl
@[simp] theorem acceptHeader_errCode (w h : Color) (s : State) : (acceptHeader w h s).errCode = s.errCode := rfl
@[simp] theorem acceptHeader_errPos (w h : Color) (s : State) : (acceptHeader w h s).errPos = s.errPos := rfl
@[simp] theorem acceptHeader_outLen (w h : Color) (s : State) : (acceptHeader w h s).outLen = s.outLen := rfl
@[simp] theorem acceptHeader_outPos (w h : Color) (s : State) : (acceptHeader w h s).outPos = s.outPos := rfl
@[simp] theorem acceptHeader_fbCapacity (w h : Color) (s : State) : (acceptHeader w h s).fbCapacity = s.fbCapacity := rfl
@[simp] theorem acceptHeader_input (w h : Color) (s : State) : (acceptHeader w h s).input = s.input := rfl
@[simp] theorem acceptHeader_out (w h : Color) (s : State) : (acceptHeader w h s).out = s.out := rfl
@[simp] theorem acceptHeader_host (w h : Color) (s : State) : (acceptHeader w h s).host = s.host := rfl
@[simp] theorem acceptHeader_readData (w h : Color) (s : State) : (acceptHeader w h s).readData = s.readData := rfl
@[simp] theorem acceptHeader_fbEpoch (w h : Color) (s : State) : (acceptHeader w h s).fbEpoch = s.fbEpoch := rfl

/-! ## acceptByte -/

@[simp] theorem acceptByte_phase (b : Byte) (s : State) : (acceptByte b s).phase = if s.outPos + 1 = s.outLen then .done else s.phase := rfl
@[simp] theorem acceptByte_rp (b : Byte) (s : State) : (acceptByte b s).rp = s.rp := rfl
@[simp] theorem acceptByte_w (b : Byte) (s : State) : (acceptByte b s).w = s.w := rfl
@[simp] theorem acceptByte_h (b : Byte) (s : State) : (acceptByte b s).h = s.h := rfl
@[simp] theorem acceptByte_cursor (b : Byte) (s : State) : (acceptByte b s).cursor = s.cursor := rfl
@[simp] theorem acceptByte_pixCount (b : Byte) (s : State) : (acceptByte b s).pixCount = s.pixCount := rfl
@[simp] theorem acceptByte_fb (b : Byte) (s : State) : (acceptByte b s).fb = s.fb := rfl
@[simp] theorem acceptByte_unpackMode (b : Byte) (s : State) : (acceptByte b s).unpackMode = s.unpackMode := rfl
@[simp] theorem acceptByte_inLen (b : Byte) (s : State) : (acceptByte b s).inLen = s.inLen := rfl
@[simp] theorem acceptByte_errCode (b : Byte) (s : State) : (acceptByte b s).errCode = s.errCode := rfl
@[simp] theorem acceptByte_errPos (b : Byte) (s : State) : (acceptByte b s).errPos = s.errPos := rfl
@[simp] theorem acceptByte_outLen (b : Byte) (s : State) : (acceptByte b s).outLen = s.outLen := rfl
@[simp] theorem acceptByte_outPos (b : Byte) (s : State) : (acceptByte b s).outPos = s.outPos + 1 := rfl
@[simp] theorem acceptByte_fbCapacity (b : Byte) (s : State) : (acceptByte b s).fbCapacity = s.fbCapacity := rfl
@[simp] theorem acceptByte_input (b : Byte) (s : State) : (acceptByte b s).input = s.input := rfl
@[simp] theorem acceptByte_out (b : Byte) (s : State) : (acceptByte b s).out = s.out ++ [b] := rfl
@[simp] theorem acceptByte_host (b : Byte) (s : State) : (acceptByte b s).host = s.host := rfl
@[simp] theorem acceptByte_readData (b : Byte) (s : State) : (acceptByte b s).readData = s.readData := rfl
@[simp] theorem acceptByte_fbEpoch (b : Byte) (s : State) : (acceptByte b s).fbEpoch = s.fbEpoch := rfl

/-! ## startRun -/

@[simp] theorem startRun_phase (s : State) : (startRun s).phase = .header := rfl
@[simp] theorem startRun_rp (s : State) : (startRun s).rp = 0 := rfl
@[simp] theorem startRun_w (s : State) : (startRun s).w = 0 := rfl
@[simp] theorem startRun_h (s : State) : (startRun s).h = 0 := rfl
@[simp] theorem startRun_cursor (s : State) : (startRun s).cursor = 0 := rfl
@[simp] theorem startRun_pixCount (s : State) : (startRun s).pixCount = 0 := rfl
@[simp] theorem startRun_fb (s : State) : (startRun s).fb = s.fb := rfl
@[simp] theorem startRun_unpackMode (s : State) : (startRun s).unpackMode = s.unpackMode := rfl
@[simp] theorem startRun_inLen (s : State) : (startRun s).inLen = s.inLen := rfl
@[simp] theorem startRun_errCode (s : State) : (startRun s).errCode = .none := rfl
@[simp] theorem startRun_errPos (s : State) : (startRun s).errPos = 0 := rfl
@[simp] theorem startRun_outLen (s : State) : (startRun s).outLen = 0 := rfl
@[simp] theorem startRun_outPos (s : State) : (startRun s).outPos = 0 := rfl
@[simp] theorem startRun_fbCapacity (s : State) : (startRun s).fbCapacity = s.fbCapacity := rfl
@[simp] theorem startRun_input (s : State) : (startRun s).input = s.input := rfl
@[simp] theorem startRun_out (s : State) : (startRun s).out = s.out := rfl
@[simp] theorem startRun_host (s : State) : (startRun s).host = s.host := rfl
@[simp] theorem startRun_readData (s : State) : (startRun s).readData = s.readData := rfl
@[simp] theorem startRun_fbEpoch (s : State) : (startRun s).fbEpoch = s.fbEpoch + 1 := rfl

/-! ## resetBlock -/

@[simp] theorem resetBlock_phase (s : State) : (resetBlock s).phase = .idle := rfl
@[simp] theorem resetBlock_rp (s : State) : (resetBlock s).rp = 0 := rfl
@[simp] theorem resetBlock_w (s : State) : (resetBlock s).w = 0 := rfl
@[simp] theorem resetBlock_h (s : State) : (resetBlock s).h = 0 := rfl
@[simp] theorem resetBlock_cursor (s : State) : (resetBlock s).cursor = 0 := rfl
@[simp] theorem resetBlock_pixCount (s : State) : (resetBlock s).pixCount = 0 := rfl
@[simp] theorem resetBlock_fb (s : State) : (resetBlock s).fb = [] := rfl
@[simp] theorem resetBlock_unpackMode (s : State) : (resetBlock s).unpackMode = .compat := rfl
@[simp] theorem resetBlock_inLen (s : State) : (resetBlock s).inLen = 0 := rfl
@[simp] theorem resetBlock_errCode (s : State) : (resetBlock s).errCode = .none := rfl
@[simp] theorem resetBlock_errPos (s : State) : (resetBlock s).errPos = 0 := rfl
@[simp] theorem resetBlock_outLen (s : State) : (resetBlock s).outLen = 0 := rfl
@[simp] theorem resetBlock_outPos (s : State) : (resetBlock s).outPos = 0 := rfl
@[simp] theorem resetBlock_fbCapacity (s : State) : (resetBlock s).fbCapacity = s.fbCapacity := rfl
@[simp] theorem resetBlock_input (s : State) : (resetBlock s).input = s.input := rfl
@[simp] theorem resetBlock_out (s : State) : (resetBlock s).out = s.out := rfl
@[simp] theorem resetBlock_host (s : State) : (resetBlock s).host = s.host := rfl
@[simp] theorem resetBlock_readData (s : State) : (resetBlock s).readData = s.readData := rfl
@[simp] theorem resetBlock_fbEpoch (s : State) : (resetBlock s).fbEpoch = s.fbEpoch + 1 := rfl

/-! ## hostRead -/

@[simp] theorem hostRead_phase (reg : Nat) (s : State) : (hostRead reg s).phase = s.phase := rfl
@[simp] theorem hostRead_rp (reg : Nat) (s : State) : (hostRead reg s).rp = s.rp := rfl
@[simp] theorem hostRead_w (reg : Nat) (s : State) : (hostRead reg s).w = s.w := rfl
@[simp] theorem hostRead_h (reg : Nat) (s : State) : (hostRead reg s).h = s.h := rfl
@[simp] theorem hostRead_cursor (reg : Nat) (s : State) : (hostRead reg s).cursor = s.cursor := rfl
@[simp] theorem hostRead_pixCount (reg : Nat) (s : State) : (hostRead reg s).pixCount = s.pixCount := rfl
@[simp] theorem hostRead_fb (reg : Nat) (s : State) : (hostRead reg s).fb = s.fb := rfl
@[simp] theorem hostRead_unpackMode (reg : Nat) (s : State) : (hostRead reg s).unpackMode = s.unpackMode := rfl
@[simp] theorem hostRead_inLen (reg : Nat) (s : State) : (hostRead reg s).inLen = s.inLen := rfl
@[simp] theorem hostRead_errCode (reg : Nat) (s : State) : (hostRead reg s).errCode = s.errCode := rfl
@[simp] theorem hostRead_errPos (reg : Nat) (s : State) : (hostRead reg s).errPos = s.errPos := rfl
@[simp] theorem hostRead_outLen (reg : Nat) (s : State) : (hostRead reg s).outLen = s.outLen := rfl
@[simp] theorem hostRead_outPos (reg : Nat) (s : State) : (hostRead reg s).outPos = s.outPos := rfl
@[simp] theorem hostRead_fbCapacity (reg : Nat) (s : State) : (hostRead reg s).fbCapacity = s.fbCapacity := rfl
@[simp] theorem hostRead_input (reg : Nat) (s : State) : (hostRead reg s).input = s.input := rfl
@[simp] theorem hostRead_out (reg : Nat) (s : State) : (hostRead reg s).out = s.out := rfl
@[simp] theorem hostRead_host (reg : Nat) (s : State) : (hostRead reg s).host = s.host := rfl
@[simp] theorem hostRead_readData (reg : Nat) (s : State) : (hostRead reg s).readData = readReg s reg := rfl
@[simp] theorem hostRead_fbEpoch (reg : Nat) (s : State) : (hostRead reg s).fbEpoch = s.fbEpoch := rfl

/-! ## popHost -/

@[simp] theorem popHost_phase (s : State) : (popHost s).phase = s.phase := rfl
@[simp] theorem popHost_rp (s : State) : (popHost s).rp = s.rp := rfl
@[simp] theorem popHost_w (s : State) : (popHost s).w = s.w := rfl
@[simp] theorem popHost_h (s : State) : (popHost s).h = s.h := rfl
@[simp] theorem popHost_cursor (s : State) : (popHost s).cursor = s.cursor := rfl
@[simp] theorem popHost_pixCount (s : State) : (popHost s).pixCount = s.pixCount := rfl
@[simp] theorem popHost_fb (s : State) : (popHost s).fb = s.fb := rfl
@[simp] theorem popHost_unpackMode (s : State) : (popHost s).unpackMode = s.unpackMode := rfl
@[simp] theorem popHost_inLen (s : State) : (popHost s).inLen = s.inLen := rfl
@[simp] theorem popHost_errCode (s : State) : (popHost s).errCode = s.errCode := rfl
@[simp] theorem popHost_errPos (s : State) : (popHost s).errPos = s.errPos := rfl
@[simp] theorem popHost_outLen (s : State) : (popHost s).outLen = s.outLen := rfl
@[simp] theorem popHost_outPos (s : State) : (popHost s).outPos = s.outPos := rfl
@[simp] theorem popHost_fbCapacity (s : State) : (popHost s).fbCapacity = s.fbCapacity := rfl
@[simp] theorem popHost_input (s : State) : (popHost s).input = s.input := rfl
@[simp] theorem popHost_out (s : State) : (popHost s).out = s.out := rfl
@[simp] theorem popHost_host (s : State) : (popHost s).host = s.host.tail := rfl
@[simp] theorem popHost_readData (s : State) : (popHost s).readData = s.readData := rfl
@[simp] theorem popHost_fbEpoch (s : State) : (popHost s).fbEpoch = s.fbEpoch := rfl

end Sys2Proof.Machine
end

