-- ==== Sys2Proof/Laws/Ops.lean ====
section
/-!
SUPPORT. What each shared operation can do, said once: the appends, the runs, the newline, the header step, the terminal
check, the emit step and the host's operations.
-/

namespace Sys2Proof.Machine

/-! ## Appends -/

/-- Appending pixels changes PIX_COUNT and FB, and nothing else (R141). -/
theorem fbAppendAll_eq (pixels : List Pixel) (s : State) :
    fbAppendAll pixels s =
      { s with fb := (fbAppendAll pixels s).fb, pixCount := s.pixCount + BitVec.ofNat 32 pixels.length } := by
  induction pixels generalizing s with
  | nil => simp [fbAppendAll]
  | cons px pixels ih =>
    have hcount : s.pixCount + 1 + BitVec.ofNat 32 pixels.length =
        s.pixCount + BitVec.ofNat 32 (px :: pixels).length := by
      apply BitVec.eq_of_toNat_eq
      simp [BitVec.toNat_add]
      omega
    rw [fbAppendAll, ih]
    simp only [fbAppend, hcount]

@[simp] theorem fbAppendAll_pixCount (pixels : List Pixel) (s : State) :
    (fbAppendAll pixels s).pixCount = s.pixCount + BitVec.ofNat 32 pixels.length := by
  rw [fbAppendAll_eq]

@[simp] theorem fbAppendAll_phase (pixels : List Pixel) (s : State) : (fbAppendAll pixels s).phase = s.phase := by
  rw [fbAppendAll_eq]

@[simp] theorem fbAppendAll_rp (pixels : List Pixel) (s : State) : (fbAppendAll pixels s).rp = s.rp := by
  rw [fbAppendAll_eq]

@[simp] theorem fbAppendAll_cursor (pixels : List Pixel) (s : State) : (fbAppendAll pixels s).cursor = s.cursor := by
  rw [fbAppendAll_eq]

/-- PIX_COUNT counts the appended pixels, where the 32-bit register holds their number (R27). -/
theorem fbAppendAll_pixCount_toNat (pixels : List Pixel) (s : State)
    (h : s.pixCount.toNat + pixels.length < 2 ^ 32) :
    (fbAppendAll pixels s).pixCount.toNat = s.pixCount.toNat + pixels.length := by
  simp [BitVec.toNat_add]
  omega

/-- Entries below PIX_COUNT stay, the next ones are the pixels in order, and those after them stay (R141, R142). -/
theorem fbAppendAll_get (pixels : List Pixel) (s : State) (h : s.pixCount.toNat + pixels.length < 2 ^ 32) (i : Nat) :
    cellsGet (fbAppendAll pixels s).fb i =
      if s.pixCount.toNat ≤ i ∧ i < s.pixCount.toNat + pixels.length then pixels[i - s.pixCount.toNat]?
      else cellsGet s.fb i := by
  induction pixels generalizing s with
  | nil => simp [fbAppendAll]
  | cons px pixels ih =>
    simp only [List.length_cons] at h
    have hp : (fbAppend px s).pixCount.toNat = s.pixCount.toNat + 1 := by
      simp [BitVec.toNat_add]; omega
    rw [fbAppendAll, ih _ (by omega), hp]
    simp only [fbAppend_fb, List.length_cons]
    by_cases hi : i = s.pixCount.toNat
    · subst hi
      rw [if_neg (by omega), if_pos (by omega), cellsGet_set_same]
      simp
    · rw [cellsGet_set_other _ _ hi]
      by_cases hin : s.pixCount.toNat + 1 ≤ i ∧ i < s.pixCount.toNat + 1 + pixels.length
      · rw [if_pos hin, if_pos (by omega), show i - s.pixCount.toNat = (i - (s.pixCount.toNat + 1)) + 1 by omega]
        simp
      · rw [if_neg hin, if_neg (by omega)]

/-- Appends within the store keep its canonical form. -/
theorem fbAppendAll_wf (pixels : List Pixel) (s : State) (hroom : s.pixCount.toNat + pixels.length ≤ s.fbCapacity)
    (h : PixelStore.wf s.fbCapacity s.fb = true) : PixelStore.wf s.fbCapacity (fbAppendAll pixels s).fb = true := by
  induction pixels generalizing s with
  | nil => exact h
  | cons px pixels ih =>
    simp only [List.length_cons] at hroom
    have hle : (fbAppend px s).pixCount.toNat ≤ s.pixCount.toNat + 1 := by
      simp [BitVec.toNat_add]; omega
    have hcap : (fbAppend px s).fbCapacity = s.fbCapacity := rfl
    exact ih (fbAppend px s) (by omega) (PixelStore.set_wf px (by omega) h)

/-! ## Runs and the newline -/

/-- All that a pixel run can do (R142-R144): it takes one of two faults, finds no entry in the store, or appends its
pixels and moves CURSOR and RP. -/
theorem appendSeq_cases (pixels : List Pixel) (len : Nat) (s : State) :
    (s.w.toNat < s.cursor.toNat + pixels.length ∧
      appendSeq pixels len s = .next (raiseFault .rowOverrun s.rp s)) ∨
    (s.cursor.toNat + pixels.length ≤ s.w.toNat ∧ s.w.toNat * s.h.toNat < s.pixCount.toNat + pixels.length ∧
      appendSeq pixels len s = .next (raiseFault .frameOverflow s.rp s)) ∨
    (s.cursor.toNat + pixels.length ≤ s.w.toNat ∧ s.pixCount.toNat + pixels.length ≤ s.w.toNat * s.h.toNat ∧
      s.fbCapacity < s.pixCount.toNat + pixels.length ∧ appendSeq pixels len s = .fault .noPixelEntry) ∨
    (s.cursor.toNat + pixels.length ≤ s.w.toNat ∧ s.pixCount.toNat + pixels.length ≤ s.w.toNat * s.h.toNat ∧
      s.pixCount.toNat + pixels.length ≤ s.fbCapacity ∧
      appendSeq pixels len s = .next (advanceRp len (moveCursor pixels.length (fbAppendAll pixels s)))) := by
  simp only [appendSeq, rowRoom, frameRoom, storeRoom, decide_eq_false_iff_not, not_le]
  by_cases h1 : s.w.toNat < s.cursor.toNat + pixels.length
  · exact .inl ⟨h1, by rw [if_pos h1]⟩
  · by_cases h2 : s.w.toNat * s.h.toNat < s.pixCount.toNat + pixels.length
    · exact .inr (.inl ⟨by omega, h2, by rw [if_neg h1, if_pos h2]⟩)
    · by_cases h3 : s.fbCapacity < s.pixCount.toNat + pixels.length
      · exact .inr (.inr (.inl ⟨by omega, by omega, h3, by rw [if_neg h1, if_neg h2, if_pos h3]⟩))
      · exact .inr (.inr (.inr ⟨by omega, by omega, by omega, by rw [if_neg h1, if_neg h2, if_neg h3]⟩))

/-- All that a newline can do (R145): the frame fault, no entry in the store, or the padding with CURSOR at 0. -/
theorem padRow_cases (len : Nat) (s : State) :
    (s.w.toNat * s.h.toNat < s.pixCount.toNat + padCount s ∧
      padRow len s = .next (raiseFault .frameOverflow s.rp s)) ∨
    (s.pixCount.toNat + padCount s ≤ s.w.toNat * s.h.toNat ∧ s.fbCapacity < s.pixCount.toNat + padCount s ∧
      padRow len s = .fault .noPixelEntry) ∨
    (s.pixCount.toNat + padCount s ≤ s.w.toNat * s.h.toNat ∧ s.pixCount.toNat + padCount s ≤ s.fbCapacity ∧
      padRow len s =
        .next (advanceRp len (homeCursor (fbAppendAll (List.replicate (padCount s) Pixel.black) s)))) := by
  simp only [padRow, frameRoom, storeRoom, decide_eq_false_iff_not, not_le]
  by_cases h1 : s.w.toNat * s.h.toNat < s.pixCount.toNat + padCount s
  · exact .inl ⟨h1, by rw [if_pos h1]⟩
  · by_cases h2 : s.fbCapacity < s.pixCount.toNat + padCount s
    · exact .inr (.inl ⟨by omega, h2, by rw [if_neg h1, if_pos h2]⟩)
    · exact .inr (.inr ⟨by omega, by omega, by rw [if_neg h1, if_neg h2]⟩)

/-! ## Opcodes with operands in the input -/

/-- Whether an opcode's bytes lie in the input, in plain inequalities (R170, R180). -/
theorem opcodeInInput_iff (len : Nat) (s : State) : opcodeInInput len s = true ↔ s.rp.toNat + len ≤ s.inLen.toNat := by
  simp [opcodeInInput]

/-- All that LIT can do (R170): the truncation fault, or the run of its colors' pixels. -/
theorem execLit_cases (cnt : BitVec 5) (colors : List Color) (s : State) :
    (s.inLen.toNat < s.rp.toNat + (1 + 2 * runCount cnt) ∧
      execLit cnt colors s = .next (raiseFault .truncatedOpcode s.rp s)) ∨
    (s.rp.toNat + (1 + 2 * runCount cnt) ≤ s.inLen.toNat ∧
      execLit cnt colors s = appendSeq (colors.map (unpack s.unpackMode)) (1 + 2 * runCount cnt) s) := by
  unfold execLit
  cases h : opcodeInInput (1 + 2 * runCount cnt) s
  · exact .inl ⟨by simpa [opcodeInInput] using h, by rw [if_pos rfl]⟩
  · exact .inr ⟨(opcodeInInput_iff _ _).1 h, by rw [if_neg (by decide)]⟩

/-- All that REP can do (R180): the truncation fault, or the run of its color's pixel. -/
theorem execRep_cases (cnt : BitVec 5) (color : Color) (s : State) :
    (s.inLen.toNat < s.rp.toNat + 3 ∧ execRep cnt color s = .next (raiseFault .truncatedOpcode s.rp s)) ∨
    (s.rp.toNat + 3 ≤ s.inLen.toNat ∧
      execRep cnt color s = appendSeq (List.replicate (runCount cnt) (unpack s.unpackMode color)) 3 s) := by
  unfold execRep
  cases h : opcodeInInput 3 s
  · exact .inl ⟨by simpa [opcodeInInput] using h, by rw [if_pos rfl]⟩
  · exact .inr ⟨(opcodeInInput_iff _ _).1 h, by rw [if_neg (by decide)]; rfl⟩

/-- BLACK is a run of black pixels (R175). -/
theorem execBlack_eq (cnt : BitVec 5) (s : State) :
    execBlack cnt s = appendSeq (List.replicate (runCount cnt) Pixel.black) 1 s := rfl

/-! ## The steps that are no opcode -/

/-- The dimension check in plain inequalities (R163). -/
theorem dimensionsOk_iff (w h capacity : Nat) :
    dimensionsOk w h capacity = true ↔
      1 ≤ w ∧ 1 ≤ h ∧ w * h ≤ capacity ∧ outputLength w h ≤ Config.outputLimit := by
  simp only [dimensionsOk, Bool.not_eq_true', Bool.or_eq_false_iff, beq_eq_false_iff_ne, decide_eq_false_iff_not]
  omega

/-- All that the header step can do (R162, R163). -/
theorem headerStep_cases (s : State) :
    (s.inLen.toNat < 8 ∧ headerStep s = .next (raiseFault .truncatedHeader 0 s)) ∨
    (8 ≤ s.inLen.toNat ∧ dimensionsOk (inLE16 s 0).toNat (inLE16 s 4).toNat s.fbCapacity = false ∧
      headerStep s = .next (raiseFault .invalidDimensions 0 s)) ∨
    (8 ≤ s.inLen.toNat ∧ dimensionsOk (inLE16 s 0).toNat (inLE16 s 4).toNat s.fbCapacity = true ∧
      headerStep s = .next (acceptHeader (inLE16 s 0) (inLE16 s 4) s)) := by
  unfold headerStep
  by_cases h1 : s.inLen.toNat < 8
  · exact .inl ⟨h1, by rw [if_pos h1]⟩
  · cases h2 : dimensionsOk (inLE16 s 0).toNat (inLE16 s 4).toNat s.fbCapacity
    · exact .inr (.inl ⟨by omega, rfl, by rw [if_neg h1, if_pos rfl]⟩)
    · exact .inr (.inr ⟨by omega, rfl, by rw [if_neg h1, if_neg (by decide)]⟩)

/-- All that the terminal check can do (R166). -/
theorem terminalCheck_cases (s : State) :
    (s.pixCount.toNat = s.w.toNat * s.h.toNat ∧
      terminalCheck s = .next { s with
        outLen := BitVec.ofNat 32 (outputLength s.w.toNat s.h.toNat), outPos := 0, phase := .emit }) ∨
    (s.pixCount.toNat ≠ s.w.toNat * s.h.toNat ∧
      terminalCheck s = .next (raiseFault .incompleteFrame s.rp s)) := by
  unfold terminalCheck
  by_cases h : s.pixCount.toNat = s.w.toNat * s.h.toNat
  · exact .inl ⟨h, by rw [if_pos h]⟩
  · exact .inr ⟨h, by rw [if_neg h]⟩

/-- All that the emit step can do (R214). -/
theorem emitStep_cases (a : SinkAnswer) (s : State) :
    (s.outLen.toNat ≤ s.outPos.toNat ∧ emitStep a s = .fault .noOutputByte) ∨
    (s.outPos.toNat < s.outLen.toNat ∧
      sourceExists s.w.toNat s.h.toNat s.outPos.toNat s.fbCapacity = false ∧
      emitStep a s = .fault .noPixelEntry) ∨
    (s.outPos.toNat < s.outLen.toNat ∧
      sourceExists s.w.toNat s.h.toNat s.outPos.toNat s.fbCapacity = true ∧
      (a = .refuse ∧ emitStep a s = .next (raiseFault .ioError s.outPos s) ∨
        a = .accept ∧ emitStep a s = .next (acceptByte (offeredByte s) s))) := by
  unfold emitStep
  by_cases h1 : s.outLen.toNat ≤ s.outPos.toNat
  · exact .inl ⟨h1, by rw [if_pos h1]⟩
  · cases h2 : sourceExists s.w.toNat s.h.toNat s.outPos.toNat s.fbCapacity
    · exact .inr (.inl ⟨by omega, rfl, by rw [if_neg h1, if_pos rfl]⟩)
    · refine .inr (.inr ⟨by omega, rfl, ?_⟩)
      rw [if_neg h1, if_neg (by decide)]
      cases a
      · exact .inr ⟨rfl, rfl⟩
      · exact .inl ⟨rfl, rfl⟩

/-! ## The host's operations -/

/-- All that a register write can do (R37, R38, R160): nothing, the start command, or one of the two writable
registers. -/
theorem writeReg_cases (reg : Nat) (v : Word) (s : State) :
    writeReg reg v s = s ∨
    (reg = 0 ∧ v.getLsbD 0 = true ∧ busy s.phase = false ∧ writeReg reg v s = startRun s) ∨
    (reg = 1 ∧ busy s.phase = false ∧ writeReg reg v s = { s with unpackMode := unpackModeOfBit (v.getLsbD 0) }) ∨
    (reg = 2 ∧ busy s.phase = false ∧ writeReg reg v s = { s with inLen := v }) := by
  match reg with
  | 0 =>
    cases hv : v.getLsbD 0
    · exact .inl (by simp only [writeReg, hv]; rfl)
    · cases hb : busy s.phase
      · exact .inr (.inl ⟨rfl, rfl, rfl, by simp only [writeReg, hv, startCommand, hb]; rfl⟩)
      · exact .inl (by simp only [writeReg, hv, startCommand, hb]; rfl)
  | 1 =>
    cases hb : busy s.phase
    · exact .inr (.inr (.inl ⟨rfl, rfl, by simp only [writeReg, hb]; rfl⟩))
    · exact .inl (by simp only [writeReg, hb]; rfl)
  | 2 =>
    cases hb : busy s.phase
    · exact .inr (.inr (.inr ⟨rfl, rfl, by simp only [writeReg, hb]; rfl⟩))
    · exact .inl (by simp only [writeReg, hb]; rfl)
  | _ + 3 => exact .inl rfl

/-- All that loading the input buffer can do (R262, R270). -/
theorem loadInput_cases (offset : Word) (b : Byte) (s : State) :
    (busy s.phase = true ∧ loadInput offset b s = .refused .inputLoadWhileBusy) ∨
    (busy s.phase = false ∧ Config.inputSpace ≤ offset.toNat ∧ loadInput offset b s = .fault .noInputOffset) ∨
    (busy s.phase = false ∧ offset.toNat < Config.inputSpace ∧
      loadInput offset b s = .next { s with input := Memory.write s.input offset.toNat b }) := by
  unfold loadInput
  cases hb : busy s.phase
  · by_cases h : Config.inputSpace ≤ offset.toNat
    · exact .inr (.inl ⟨rfl, h, by simp [h]⟩)
    · exact .inr (.inr ⟨rfl, by omega, by simp [h]⟩)
  · exact .inl ⟨rfl, by simp⟩

end Sys2Proof.Machine
end

