-- ==== Sys2Proof/Laws/Step.lean ====
section
/-!
SUPPORT. What one opcode, one block step and one machine step can do, said once.
-/

namespace Sys2Proof.Machine

/-! ## Opcodes -/

/-- The run of an opcode has as many pixels as the opcode appends (R142, R145). -/
@[simp] theorem pixelRun_length (i : Instr) (s : State) : (pixelRun i s).length = pixelsAppended i s := by
  cases i <;> simp [pixelRun, pixelsAppended]

/-- The faults an opcode can take (R230, R236). -/
def opcodeFaults : List ErrCode := [.truncatedOpcode, .unrecognizedOpcode, .rowOverrun, .frameOverflow]

/-- `t` is `s` after the run `pixels` by an opcode of `len` bytes (R142). -/
def RanPixels (pixels : List Pixel) (len : Nat) (s t : State) : Prop :=
  s.cursor.toNat + pixels.length ≤ s.w.toNat ∧ s.pixCount.toNat + pixels.length ≤ s.w.toNat * s.h.toNat ∧
    s.pixCount.toNat + pixels.length ≤ s.fbCapacity ∧
    t = advanceRp len (moveCursor pixels.length (fbAppendAll pixels s))

theorem appendSeq_next {pixels : List Pixel} {len : Nat} {s t : State} (h : appendSeq pixels len s = .next t) :
    (∃ code ∈ opcodeFaults, t = raiseFault code s.rp s) ∨ RanPixels pixels len s t := by
  rcases appendSeq_cases pixels len s with ⟨_, he⟩ | ⟨_, _, he⟩ | ⟨_, _, _, he⟩ | ⟨h1, h2, h3, he⟩ <;> rw [he] at h
  · exact .inl ⟨.rowOverrun, by simp [opcodeFaults], by simpa using h.symm⟩
  · exact .inl ⟨.frameOverflow, by simp [opcodeFaults], by simpa using h.symm⟩
  · simp at h
  · exact .inr ⟨h1, h2, h3, by simpa using h.symm⟩

/-- All that an opcode can do, if it answers a next state: it takes a fault at RP; or it ran its pixels, a `LIT` or
`REP` with its bytes inside the input; or it is a newline and padded the row (R24, R142, R145, R233). -/
theorem exec_next {i : Instr} {s t : State} (h : exec i s = .next t) :
    (∃ code ∈ opcodeFaults, t = raiseFault code s.rp s) ∨
    (RanPixels (pixelRun i s) (opcodeLength i) s t ∧ (opcodeLength i = 1 ∨ s.rp.toNat + opcodeLength i ≤ s.inLen.toNat)) ∨
    (∃ cnt, i = .nl cnt ∧ s.pixCount.toNat + padCount s ≤ s.w.toNat * s.h.toNat ∧
      s.pixCount.toNat + padCount s ≤ s.fbCapacity ∧
      t = advanceRp 1 (homeCursor (fbAppendAll (List.replicate (padCount s) Pixel.black) s))) := by
  have illegal : .next (unrecognized s) = (.next t : Host.Outcome State Fault Refusal) →
      ∃ code ∈ opcodeFaults, t = raiseFault code s.rp s := fun hu =>
    ⟨.unrecognizedOpcode, by simp [opcodeFaults], by simpa [unrecognized] using hu.symm⟩
  cases i with
  | lit cnt colors =>
    simp only [exec, execLit] at h
    split at h
    · exact .inl ⟨.truncatedOpcode, by simp [opcodeFaults], by simpa using h.symm⟩
    · rename_i hfit
      exact (appendSeq_next h).imp id fun hr => .inl ⟨hr, .inr (by simpa [opcodeInInput, opcodeLength] using hfit)⟩
  | black cnt => exact (appendSeq_next h).imp id fun hr => .inl ⟨hr, .inl rfl⟩
  | rep cnt color =>
    simp only [exec, execRep] at h
    split at h
    · exact .inl ⟨.truncatedOpcode, by simp [opcodeFaults], by simpa using h.symm⟩
    · rename_i hfit
      exact (appendSeq_next h).imp id fun hr => .inl ⟨hr, .inr (by simpa [opcodeInInput, opcodeLength] using hfit)⟩
  | nl cnt =>
    simp only [exec, execNl] at h
    rcases padRow_cases 1 s with ⟨_, he⟩ | ⟨_, _, he⟩ | ⟨h1, h2, he⟩ <;> rw [he] at h
    · exact .inl ⟨.frameOverflow, by simp [opcodeFaults], by simpa using h.symm⟩
    · simp at h
    · exact .inr (.inr ⟨cnt, rfl, h1, h2, by simpa using h.symm⟩)
  | illegal011 cnt => exact .inl (illegal h)
  | illegal101 cnt => exact .inl (illegal h)
  | illegal110 cnt => exact .inl (illegal h)
  | illegal111 cnt => exact .inl (illegal h)

/-! ## Turns -/

/-- The block's turn is the block's step (log 5). -/
theorem step_of_blockTurn {s : State} (h : blockTurn s = true) : step s = blockStep (popHost s) := by
  unfold blockTurn at h
  unfold step advance popHost
  cases hh : s.host with
  | nil => simp only [List.tail_nil]; rw [← hh]
  | cons m rest =>
    rw [hh] at h
    cases m <;> simp_all [hostStep]

/-- All that a machine step can be: the block's turn, or one move of the host other than doing nothing. -/
theorem step_cases (s : State) :
    (blockTurn s = true ∧ step s = blockStep (popHost s)) ∨
    (∃ reg v, s.host.head? = some (.write reg v) ∧ step s = .next (writeReg reg v (popHost s))) ∨
    (∃ reg, s.host.head? = some (.read reg) ∧ step s = .next (hostRead reg (popHost s))) ∨
    (∃ offset b, s.host.head? = some (.load offset b) ∧ step s = loadInput offset b (popHost s)) ∨
    (∃ a, s.host.head? = some (.answer a) ∧ step s = sinkAnswers a (popHost s)) ∨
    (s.host.head? = some .reset ∧ step s = .next (resetBlock (popHost s))) := by
  cases hh : s.host with
  | nil =>
    have ht : blockTurn s = true := by simp [blockTurn, hh]
    exact .inl ⟨ht, step_of_blockTurn ht⟩
  | cons m rest =>
    have hp : popHost s = { s with host := rest } := by simp [popHost, hh]
    have hs : step s = hostStep m (popHost s) := by rw [hp]; simp [step, advance, hh]
    cases m with
    | idle =>
      have ht : blockTurn s = true := by simp [blockTurn, hh]
      exact .inl ⟨ht, step_of_blockTurn ht⟩
    | write reg v => exact .inr (.inl ⟨reg, v, rfl, hs⟩)
    | read reg => exact .inr (.inr (.inl ⟨reg, rfl, hs⟩))
    | load offset b => exact .inr (.inr (.inr (.inl ⟨offset, b, rfl, hs⟩)))
    | answer a => exact .inr (.inr (.inr (.inr (.inl ⟨a, rfl, hs⟩))))
    | reset => exact .inr (.inr (.inr (.inr (.inr ⟨rfl, hs⟩))))

/-- The sink's answer in PHASE EMIT is the emit step (R214). -/
theorem sinkAnswers_emit (a : SinkAnswer) {s : State} (h : s.phase = .emit) : sinkAnswers a s = emitStep a s := by
  simp [sinkAnswers, h]

/-- The sink's answer in any other phase changes nothing (R161). -/
theorem sinkAnswers_other (a : SinkAnswer) {s : State} (h : s.phase ≠ .emit) : sinkAnswers a s = .next s := by
  cases hp : s.phase <;> simp_all [sinkAnswers]

/-- With nothing enabled, the block's turn changes nothing (R161; log 6). -/
theorem blockStep_idle {s : State} (h : busy s.phase = false ∨ s.phase = .emit) : blockStep s = .next s := by
  cases hp : s.phase <;> simp_all [blockStep, busy]

/-! ## Runs (R195) -/

/-- A run of any machine goes on as long as its step answers a next state. -/
theorem run_succ (M : Host.Core) {s t : M.State} (n : Nat) (h : M.step s = .next t) : M.run (n + 1) s = M.run n t := by
  simp [Host.Core.run, h]

/-- The host's run of this machine goes on as long as `step` answers a next state. -/
theorem core_run_succ {s t : State} (n : Nat) (h : step s = .next t) :
    Host.Core.run Sys2Proof.core (n + 1) s = Host.Core.run Sys2Proof.core n t := run_succ Sys2Proof.core n h

/-- A run goes on, step by step, while the block is busy. -/
theorem runState_succ {s t : State} (n : Nat) (hb : busy s.phase = true) (h : step s = .next t) :
    runState (n + 1) s = runState n t := by simp [runState, hb, h]

/-- A run that has ended stays where it ended. -/
theorem runState_ended {s : State} (n : Nat) (hb : busy s.phase = false) : runState n s = .next s := by
  cases n <;> simp [runState, hb]

/-- The steps of a run are counted step by step while the block is busy. -/
theorem runBlockSteps_succ {s t : State} (n : Nat) (hb : busy s.phase = true) (h : step s = .next t) :
    runBlockSteps (n + 1) s = (stepCounts s).toNat + runBlockSteps n t := by simp [runBlockSteps, hb, h]

/-- Of the steps of an enabled block, only a refused byte is not counted (R280, R214; log 23). -/
theorem stepCounts_of_enabled {s : State} (h : blockEnabled s = true) : stepCounts s = !sinkRefuses s := by
  simp [stepCounts, h]

/-- A run that has ended takes no more steps. -/
theorem runBlockSteps_ended {s : State} (n : Nat) (hb : busy s.phase = false) : runBlockSteps n s = 0 := by
  cases n <;> simp [runBlockSteps, hb]

/-! ## The decode step -/

/-- All that the decode step can do (R164): the terminal check, the opcode at RP, or the truncation fault. -/
theorem decodeStep_cases (s : State) :
    (s.inLen.toNat ≤ s.rp.toNat ∧ decodeStep s = terminalCheck s) ∨
    (s.rp.toNat < s.inLen.toNat ∧ ∃ i rest,
      decodeOpcode (inByte s s.rp.toNat) (operandBytes s) = some (i, rest) ∧ decodeStep s = exec i s) ∨
    (s.rp.toNat < s.inLen.toNat ∧ decodeOpcode (inByte s s.rp.toNat) (operandBytes s) = none ∧
      decodeStep s = .next (raiseFault .truncatedOpcode s.rp s)) := by
  unfold decodeStep
  by_cases h : s.inLen.toNat ≤ s.rp.toNat
  · exact .inl ⟨h, by rw [if_pos h]⟩
  · rw [if_neg h]
    unfold executeOpcode
    cases hd : decodeOpcode (inByte s s.rp.toNat) (operandBytes s) with
    | none => exact .inr (.inr ⟨by omega, rfl, rfl⟩)
    | some d => exact .inr (.inl ⟨by omega, d.1, d.2, rfl, rfl⟩)

/-- A memory read of `n` bytes has `n` bytes, byte `k` of them the one at offset `a + k` (R62). -/
theorem memRead_getElem? (s : State) (a n k : Nat) :
    (memRead s a n)[k]? = if k < n then some (inByte s (a + k)) else none := by
  induction n generalizing a k with
  | zero => simp [memRead]
  | succ n ih =>
    cases k with
    | zero => simp [memRead]
    | succ k =>
      simp only [memRead, List.getElem?_cons_succ, ih, Nat.add_lt_add_iff_right]
      rw [show a + 1 + k = a + (k + 1) by omega]

/-- A memory read is two in a row (R62). -/
theorem memRead_append (s : State) (a n k : Nat) : memRead s a (n + k) = memRead s a n ++ memRead s (a + n) k := by
  induction n generalizing a with
  | zero => simp [memRead]
  | succ n ih =>
    rw [show n + 1 + k = n + k + 1 by omega, show a + (n + 1) = a + 1 + n by omega]
    simp only [memRead, ih, List.cons_append]

/-- A memory read depends on the input buffer only (R62). -/
theorem memRead_congr {s t : State} (h : t.input = s.input) (a n : Nat) : memRead t a n = memRead s a n := by
  induction n generalizing a with
  | zero => rfl
  | succ n ih => simp only [memRead, ih, inByte, h]

@[simp] theorem memRead_length (s : State) (a n : Nat) : (memRead s a n).length = n := by
  induction n generalizing a with
  | zero => rfl
  | succ n ih => simp [memRead, ih]

end Sys2Proof.Machine
end

