-- ==== Sys2Proof/Laws/Host.lean ====
section
/-!
SUPPORT. The host's moves to come decide whose turn it is and nothing else (log 5): a block step, a sink's answer and every
operation under them do the same with any other list.
-/

namespace Sys2Proof.Machine

/-! ## Opcodes -/

theorem fbAppendAll_withHost (pixels : List Pixel) (s : State) (r : List HostMove) :
    fbAppendAll pixels { s with host := r } = { fbAppendAll pixels s with host := r } := by
  induction pixels generalizing s with
  | nil => rfl
  | cons px pixels ih => exact ih (fbAppend px s)

theorem appendSeq_withHost {pixels : List Pixel} {len : Nat} {s t : State} (r : List HostMove)
    (h : appendSeq pixels len s = .next t) : appendSeq pixels len { s with host := r } = .next { t with host := r } := by
  unfold appendSeq at *
  rw [fbAppendAll_withHost, show rowRoom pixels.length { s with host := r } = rowRoom pixels.length s from rfl,
    show frameRoom pixels.length { s with host := r } = frameRoom pixels.length s from rfl,
    show storeRoom pixels.length { s with host := r } = storeRoom pixels.length s from rfl]
  split_ifs at h ⊢ <;> cases h <;> rfl

theorem padRow_withHost {len : Nat} {s t : State} (r : List HostMove) (h : padRow len s = .next t) :
    padRow len { s with host := r } = .next { t with host := r } := by
  unfold padRow at *
  rw [fbAppendAll_withHost, show padCount { s with host := r } = padCount s from rfl,
    show frameRoom (padCount s) { s with host := r } = frameRoom (padCount s) s from rfl,
    show storeRoom (padCount s) { s with host := r } = storeRoom (padCount s) s from rfl]
  split_ifs at h ⊢ <;> cases h <;> rfl

/-- An opcode does the same with any other list of host moves (R34). -/
theorem exec_withHost {i : Instr} {s t : State} (r : List HostMove) (h : exec i s = .next t) :
    exec i { s with host := r } = .next { t with host := r } := by
  cases i with
  | lit cnt colors =>
    simp only [exec, execLit] at *
    rw [show opcodeInInput (1 + 2 * runCount cnt) { s with host := r } = opcodeInInput (1 + 2 * runCount cnt) s from rfl]
    split_ifs at h ⊢
    · cases h; rfl
    · exact appendSeq_withHost r h
  | black cnt => exact appendSeq_withHost r h
  | rep cnt color =>
    simp only [exec, execRep] at *
    rw [show opcodeInInput 3 { s with host := r } = opcodeInInput 3 s from rfl]
    split_ifs at h ⊢
    · cases h; rfl
    · exact appendSeq_withHost r h
  | nl cnt => exact padRow_withHost r h
  | illegal011 => cases h; rfl
  | illegal101 => cases h; rfl
  | illegal110 => cases h; rfl
  | illegal111 => cases h; rfl

/-! ## Block steps -/

theorem memRead_withHost (s : State) (r : List HostMove) (a n : Nat) :
    memRead { s with host := r } a n = memRead s a n :=
  memRead_congr (s := s) (t := { s with host := r }) rfl a n

/-- The block's step does the same with any other list of host moves (R161). -/
theorem blockStep_withHost {s t : State} (r : List HostMove) (h : blockStep s = .next t) :
    blockStep { s with host := r } = .next { t with host := r } := by
  unfold blockStep at *
  dsimp only at *
  split at h
  · cases h; rfl
  · rcases headerStep_cases s with ⟨h1, he⟩ | ⟨h1, h2, he⟩ | ⟨h1, h2, he⟩ <;> rw [he] at h <;> cases h
    · exact if_pos h1
    · exact (if_neg (by simpa using h1)).trans (if_pos h2)
    · exact (if_neg (by simpa using h1)).trans (if_neg fun hx => Bool.noConfusion (h2.symm.trans hx))
  · rcases decodeStep_cases s with ⟨h1, he⟩ | ⟨h1, i, rest, hd, he⟩ | ⟨h1, hd, he⟩ <;> rw [he] at h
    · refine (if_pos h1).trans ?_
      rcases terminalCheck_cases s with ⟨h2, hx⟩ | ⟨h2, hx⟩ <;> rw [hx] at h <;> cases h
      · exact if_pos h2
      · exact if_neg h2
    · refine (if_neg (by simpa using h1)).trans ?_
      unfold executeOpcode operandBytes at *
      rw [memRead_withHost]
      dsimp only [inByte] at *
      rw [hd]
      exact exec_withHost r h
    · refine (if_neg (by simpa using h1)).trans ?_
      unfold executeOpcode operandBytes at *
      rw [memRead_withHost]
      dsimp only [inByte] at *
      rw [hd]
      cases h; rfl
  · cases h; rfl
  · cases h; rfl
  · cases h; rfl

/-- The sink's answer does the same with any other list of host moves (R214). -/
theorem sinkAnswers_withHost {a : SinkAnswer} {s t : State} (r : List HostMove) (h : sinkAnswers a s = .next t) :
    sinkAnswers a { s with host := r } = .next { t with host := r } := by
  by_cases hp : s.phase = .emit
  · rw [sinkAnswers_emit a hp] at h
    rw [sinkAnswers_emit a (by exact hp)]
    unfold emitStep at *
    dsimp only at *
    split_ifs at h ⊢
    cases a <;> cases h <;> rfl
  · rw [sinkAnswers_other a hp] at h
    rw [sinkAnswers_other a (by exact hp)]
    cases h; rfl

/-- A step whose move is `m` is what the move does, with the moves after it still to come. -/
theorem step_withHost_cons (m : HostMove) (r : List HostMove) (s : State) :
    step { s with host := m :: r } = hostStep m { s with host := r } := rfl

end Sys2Proof.Machine
end

