-- ==== Sys2Proof/Laws/PerInstr.lean ====
section
/-!
SUPPORT. Per-instruction families: EncodeLength, the length of a well-formed opcode's encoding by its format (R94).
-/

namespace Sys2Proof.Laws.EncodeLength

/-- A well-formed opcode encodes to as many bytes as its format says (R94). -/
def Statement (i : Instr) : Prop := i.wf = true → (encode i).length = opcodeLength i

theorem lit (cnt : BitVec 5) (colors : List Color) : Statement (.lit cnt colors) := by
  intro h
  have hl : colors.length = cnt.toNat + 1 := by simpa [Instr.wf] using h
  simp only [encode, opcodeLength, List.length_cons, flatMap_colorBytes_length, runCount, hl]
  omega

theorem black (cnt : BitVec 5) : Statement (.black cnt) := fun _ => rfl

theorem rep (cnt : BitVec 5) (color : Color) : Statement (.rep cnt color) := fun _ => rfl

theorem nl (cnt : BitVec 5) : Statement (.nl cnt) := fun _ => rfl

theorem illegal011 (cnt : BitVec 5) : Statement (.illegal011 cnt) := fun _ => rfl

theorem illegal101 (cnt : BitVec 5) : Statement (.illegal101 cnt) := fun _ => rfl

theorem illegal110 (cnt : BitVec 5) : Statement (.illegal110 cnt) := fun _ => rfl

theorem illegal111 (cnt : BitVec 5) : Statement (.illegal111 cnt) := fun _ => rfl

end Sys2Proof.Laws.EncodeLength
end

