-- ==== Sys2Proof/Tests/Slice0.lean ====
section
/-!
SUPPORT. Tests: ill-formed terms refused, words written out from the encoding rules (spec/30_encoding.md,
spec/95_test_vectors.md V01-V08), single steps with results from spec/95_test_vectors.md and the rules' own examples, and
for each statement with hypotheses a state and operands that meet them.
-/

namespace Sys2Proof.Tests

open Sys2Proof Sys2Proof.Machine

/-! ## Well-formedness -/

theorem test_illformed_lit_no_colors : (Instr.lit 0 []).wf = false := by decide
theorem test_illformed_lit_too_many : (Instr.lit 1 [1, 2, 3]).wf = false := by decide
theorem test_wellformed_lit : (Instr.lit 1 [0x7800, 0x03C0]).wf = true := by decide

/-! ## Decoding: each word from the spec's encoding of it (R91-R98, R102, V01-V08) -/

theorem test_decode_lit_one : decode [0b00000000, 0x34, 0x12] = .opcode (.lit 0 [0x1234]) [] := by decide
theorem test_decode_lit_32 :
    decode (0b00011111 :: List.replicate 65 0) = .opcode (.lit 31 (List.replicate 32 0)) [0] := by decide
theorem test_decode_lit_truncated : decode [0b00000001, 0x00, 0x78, 0xC0] = .reject .truncatedOperands := by decide
theorem test_decode_black : decode [0b00100001, 0xAA] = .opcode (.black 1) [0xAA] := by decide
theorem test_decode_black_32 : decode [0b00111111] = .opcode (.black 31) [] := by decide
theorem test_decode_rep : decode [0b01000010, 0xCD, 0xAB] = .opcode (.rep 2 0xABCD) [] := by decide
theorem test_decode_rep_truncated : decode [0b01000000, 0xFF] = .reject .truncatedOperands := by decide
theorem test_decode_nl : decode [0b10001010] = .opcode (.nl 10) [] := by decide
theorem test_decode_illegal011 : decode [0b01111111, 1, 2] = .opcode (.illegal011 31) [1, 2] := by decide
theorem test_decode_illegal101 : decode [0b10100000] = .opcode (.illegal101 0) [] := by decide
theorem test_decode_illegal110 : decode [0b11011111] = .opcode (.illegal110 31) [] := by decide
theorem test_decode_illegal111 : decode [0b11111111] = .opcode (.illegal111 31) [] := by decide
theorem test_decode_empty : decode [] = .reject .noControlByte := by decide

/-- The program P2 of spec/95_test_vectors.md: its source assembles to the bytes listed there. -/
theorem test_encode_p2 :
    encodeProgram 3 2 [.lit 1 [0x7800, 0x03C0], .nl 0, .rep 2 0xFFFF] =
      [0x03, 0x00, 0x00, 0x00, 0x02, 0x00, 0x00, 0x00, 0x01, 0x00, 0x78, 0xC0, 0x03, 0x80, 0x42, 0xFF, 0xFF] := by decide

theorem test_table_rows :
    decodeTableWord 8 0x00 = some (.lit 0 [0]) ∧ decodeTableWord 8 0x20 = some (.black 0) ∧
    decodeTableWord 8 0x40 = some (.rep 0 0) ∧ decodeTableWord 8 0x80 = some (.nl 0) ∧
    decodeTableWord 8 0x60 = some (.illegal011 0) ∧ decodeTableWord 8 0xA0 = some (.illegal101 0) ∧
    decodeTableWord 8 0xC0 = some (.illegal110 0) ∧ decodeTableWord 8 0xE0 = some (.illegal111 0) := by decide

theorem test_table_operand_bytes : decodeTableWord 24 0x123440 = some (.rep 0 0x1234) := by decide

/-! ## The unpacker: the vectors of R127 -/

theorem test_unpack_compat :
    [(0x0000 : Color), 0x001E, 0x0020, 0x03C0, 0x0400, 0x7800, 0x8000, 0xFFFF, 0x1234, 0xABCD, 0x4210].map
      (unpack .compat) =
    [⟨0, 0, 0⟩, ⟨0, 0, 0⟩, ⟨0, 0, 0⟩, ⟨0, 0x78, 0⟩, ⟨0, 0, 0⟩, ⟨0, 0, 0x78⟩, ⟨0, 0, 0⟩, ⟨0, 0x78, 0x78⟩,
      ⟨0, 0x40, 0x10⟩, ⟨0, 0x78, 0x28⟩, ⟨0, 0x40, 0x40⟩] := by decide

theorem test_unpack_rgb555 :
    [(0x0001 : Color), 0x001E, 0x0020, 0x03C0, 0x0400, 0x7800, 0x8000, 0xFFFF, 0x7FFF, 0x1234, 0xABCD, 0x5555, 0xAAAA].map
      (unpack .rgb555) =
    [⟨0, 0, 0⟩, ⟨0, 0, 0x78⟩, ⟨0, 0, 0x80⟩, ⟨0, 0x78, 0⟩, ⟨0, 0x80, 0⟩, ⟨0x78, 0, 0⟩, ⟨0x80, 0, 0⟩, ⟨0xF8, 0xF8, 0xF8⟩,
      ⟨0x78, 0xF8, 0xF8⟩, ⟨0x10, 0x40, 0xD0⟩, ⟨0xA8, 0x78, 0x30⟩, ⟨0x50, 0xA8, 0x50⟩, ⟨0xA8, 0x50, 0xA8⟩] := by decide

/-! ## Small states -/

/-- PHASE DECODE at offset 8 of a `w` x `h` frame, the opcode bytes in the input, `pix` black pixels already in the
store; a store of 100 pixels. -/
def decodeState (bytes : List Byte) (w h cursor pix : Nat) : State :=
  { State.reset with
    phase := .decode, rp := 8, w := BitVec.ofNat 32 w, h := BitVec.ofNat 32 h, cursor := BitVec.ofNat 32 cursor
    pixCount := BitVec.ofNat 32 pix, inLen := BitVec.ofNat 32 (8 + bytes.length)
    input := Memory.writeSeq [] 8 bytes, fbCapacity := 100
    fb := (List.range pix).map fun i => (i, Pixel.black) }

/-- PHASE HEADER with these bytes as the whole input, and a store of 100 pixels. -/
def headerState (bytes : List Byte) : State :=
  { State.reset with
    phase := .header, inLen := BitVec.ofNat 32 bytes.length, input := Memory.writeSeq [] 0 bytes, fbCapacity := 100 }

/-- PHASE EMIT of the 2x1 black frame (P1 of spec/95_test_vectors.md) with `pos` bytes accepted. -/
def emitState (pos : Nat) : State :=
  { decodeState [] 2 1 2 2 with phase := .emit, outLen := 62, outPos := BitVec.ofNat 32 pos }

/-- `s` with one host move to come. -/
def withMove (m : HostMove) (s : State) : State := { s with host := [m] }

/-- The next state, or `s` itself where there is none. -/
def after (s : State) : State :=
  match step s with
  | .next t => t
  | .fault _ => s
  | .refused _ => s

/-! ## Single steps -/

/-- V10: a literal of two colors in COMPAT. -/
theorem test_lit_pixels :
    (after (decodeState [0x01, 0x00, 0x78, 0xC0, 0x03] 2 1 0 0)).fb = [(0, ⟨0, 0, 0x78⟩), (1, ⟨0, 0x78, 0⟩)] := by decide

/-- V14: truncation is reported before the row overrun. -/
theorem test_lit_priority : (after (decodeState [0x01, 0x00] 1 1 0 0)).errCode = .truncatedOpcode := by decide

/-- V21: a black run in the middle of a row. -/
theorem test_black_run :
    let t := after (decodeState [0x21] 4 1 1 1)
    t.cursor = 3 ∧ t.pixCount = 3 ∧ t.rp = 9 := by decide

/-- V23: at the row's end every run overruns the row. -/
theorem test_black_overrun :
    let t := after (decodeState [0x20] 2 1 2 2)
    t.phase = .fault ∧ t.errCode = .rowOverrun ∧ t.errPos = 8 ∧ t.pixCount = 2 := by decide

/-- V26: a repeat run in RGB555. -/
theorem test_rep_run :
    let t := after { decodeState [0x42, 0xFF, 0xFF] 3 2 0 3 with unpackMode := .rgb555 }
    cellsGet t.fb 5 = some ⟨0xF8, 0xF8, 0xF8⟩ ∧ t.rp = 11 ∧ t.pixCount = 6 := by decide

/-- V27: a repeat run short of one color byte. -/
theorem test_rep_truncated : (after (decodeState [0x40, 0xFF] 1 1 0 0)).errCode = .truncatedOpcode := by decide

/-- V30: a newline after two of five columns. -/
theorem test_nl_pads :
    let t := after (decodeState [0x80] 5 3 2 2)
    t.cursor = 0 ∧ t.pixCount = 5 ∧ t.rp = 9 := by decide

/-- V34: a newline after every row has ended. -/
theorem test_nl_overflow : (after (decodeState [0x80] 2 1 0 2)).errCode = .frameOverflow := by decide

/-- V50 to V53: each illegal tag. -/
theorem test_illegal_tags :
    ([0x60, 0xA0, 0xC0, 0xFF] : List Byte).map (fun b => (after (decodeState [b] 2 1 0 0)).errCode) =
      List.replicate 4 .unrecognizedOpcode := by decide

/-- V47: the header's fields are little-endian (the store here holds 100 pixels, so 100 x 1). -/
theorem test_header_accepted :
    let t := after (headerState [0x64, 0x00, 0xFF, 0xFF, 0x01, 0x00, 0xAB, 0xCD])
    t.phase = .decode ∧ t.w = 100 ∧ t.h = 1 ∧ t.rp = 8 := by decide

/-- V44: more pixels than the store holds (here 101 x 1 in a store of 100). -/
theorem test_header_too_large :
    (after (headerState [0x65, 0, 0, 0, 0x01, 0, 0, 0])).errCode = .invalidDimensions := by decide

/-- V49: a complete 3x2 frame. -/
theorem test_terminal_emit :
    let t := after (decodeState [] 3 2 3 6)
    t.phase = .emit ∧ t.outLen = 78 := by decide

/-- V69: the sink refuses byte 5. -/
theorem test_emit_refused :
    let t := after (withMove (.answer .refuse) (emitState 5))
    t.phase = .fault ∧ t.errCode = .ioError ∧ t.errPos = 5 ∧ t.outPos = 5 := by decide

/-- P1: the last byte ends the run. -/
theorem test_emit_last :
    let t := after (withMove (.answer .accept) (emitState 61))
    t.phase = .done ∧ t.outPos = 62 ∧ t.out = [0] := by decide

/-- V68: the header of a 300x1 frame, bytes 0 to 25. -/
theorem test_bmp_header :
    (bmpHeader 300 1).take 26 =
      [0x42, 0x4D, 0xBA, 0x03, 0x00, 0x00, 0x00, 0x00, 0x00, 0x00, 0x36, 0x00, 0x00, 0x00, 0x28, 0x00, 0x00, 0x00,
        0x2C, 0x01, 0x00, 0x00, 0x01, 0x00, 0x00, 0x00] := by decide

/-- V71: the start command in DONE; STATUS then reads 0x09. -/
theorem test_start_in_done :
    let t := after (withMove (.write 0 1) { emitState 62 with phase := .done })
    t.phase = .header ∧ t.w = 0 ∧ t.outLen = 0 ∧ readReg t 3 = 0x09 := by decide

/-- V73: a write to CONFIG in EMIT is ignored. -/
theorem test_config_busy : (after (withMove (.write 1 1) (emitState 0))).unpackMode = .compat := by decide

/-- V76: register 0x0D reads 0. -/
theorem test_read_absent : (after (withMove (.read 0x0D) (emitState 3))).readData = 0 := by decide

/-- The host's own question: the row's word runs as the first instruction after reset. -/
theorem test_fetch_word :
    step (State.reset.withFetchWord 8 0x20) = exec (.black 0) (State.reset.withFetchWord 8 0x20) := by rfl

/-! ## Witnesses: the hypotheses of each statement, met together -/

theorem witness_DecodeOfEncodeIsTheOpcode : (Instr.lit 31 (List.replicate 32 0xFFFF)).wf = true := by decide

theorem witness_EncodeOfDecodeIsTheBytes : decode [0x42, 0xFF, 0xFF, 0x80] = .opcode (.rep 2 0xFFFF) [0x80] := by decide

theorem witness_StreamOfOpcodesDecodesBack : ∀ i ∈ [Instr.lit 0 [7], .nl 3, .rep 31 9], i.wf = true := by decide

theorem witness_ControlByteGivesLength :
    (1 + 2 * ((0x01 : Byte).toNat % 32 + 1) ≤ [0, 0, 0, (0 : Byte)].length + 1) ∧
    ([0, 0, (0 : Byte)].length + 1 < 1 + 2 * ((0x01 : Byte).toNat % 32 + 1)) := by decide

theorem witness_TagSelectsOpcode : decode [0x9F] = .opcode (.nl 31) [] := by decide

theorem witness_CompatUnpack :
    (0x8021 : Color).toNat / 64 % 16 = (0 : Color).toNat / 64 % 16 ∧
      (0x8021 : Color).toNat / 2048 % 16 = (0 : Color).toNat / 2048 % 16 := by decide

theorem witness_LitAppendsItsColors :
    let s := decodeState [0x01, 1, 2, 3, 4] 3 2 1 4
    (Instr.lit 1 [0x0201, 0x0403]).wf = true ∧ s.rp.toNat + 1 + 2 * 2 ≤ s.inLen.toNat ∧ runFits 2 s ∧ frameRegs s := by
  unfold runFits frameRegs; decide

theorem witness_BlackAppendsBlackPixels :
    let s := decodeState [0x21] 3 2 1 4
    runFits ((1 : BitVec 5).toNat + 1) s ∧ frameRegs s := by unfold runFits frameRegs; decide

theorem witness_RepAppendsOneColor :
    let s := decodeState [0x41, 1, 2] 3 2 1 4
    s.rp.toNat + 3 ≤ s.inLen.toNat ∧ runFits ((1 : BitVec 5).toNat + 1) s ∧ frameRegs s := by
  unfold runFits frameRegs; decide

theorem witness_NlPadsTheRow :
    let s := decodeState [0x80] 3 2 1 4
    s.cursor.toNat ≤ s.w.toNat ∧ s.pixCount.toNat + (s.w.toNat - s.cursor.toNat) ≤ s.w.toNat * s.h.toNat ∧
      s.w.toNat * s.h.toNat ≤ s.fbCapacity ∧ frameRegs s := by unfold frameRegs; decide

theorem witness_IllegalTakesUnrecognizedOpcode :
    Instr.illegal110 5 = .illegal011 5 ∨ Instr.illegal110 5 = .illegal101 5 ∨ Instr.illegal110 5 = .illegal110 5 ∨
      Instr.illegal110 5 = .illegal111 5 := by decide

theorem witness_StepRunsDecodedOpcode :
    let s := decodeState [0x41, 1, 2] 3 2 1 4
    blockTurn s = true ∧ s.phase = .decode ∧ s.rp.toNat < s.inLen.toNat ∧
      decodeOpcode (inByte s s.rp.toNat) (operandBytes s) = some (.rep 1 0x0201, []) := by decide

theorem witness_FetchedOpcodeIsTheInputsBytes :
    let s := decodeState [0x00, 1, 2, 0x80] 3 2 1 4
    s.rp.toNat < s.inLen.toNat ∧
      decodeOpcode (inByte s s.rp.toNat) (operandBytes s) = some (.lit 0 [0x0201], [0x80]) := by decide

/-- The hypotheses the decode-step statements share, for control byte `ctrl`. -/
abbrev fetches (s : State) (ctrl : Nat) : Prop :=
  blockTurn s = true ∧ s.phase = .decode ∧ s.rp.toNat < s.inLen.toNat ∧ (inByte s s.rp.toNat).toNat = ctrl

theorem witness_LitStep_truncated :
    let s := decodeState [0x01, 1, 2, 3] 3 2 1 4
    fetches s 1 ∧ s.inLen.toNat < s.rp.toNat + 1 + 2 * (1 + 1) := by decide

theorem witness_LitStep_overrun :
    let s := decodeState [0x01, 1, 2, 3, 4] 3 2 2 5
    fetches s 1 ∧ s.rp.toNat + 1 + 2 * (1 + 1) ≤ s.inLen.toNat ∧ s.w.toNat < s.cursor.toNat + (1 + 1) := by decide

theorem witness_LitStep_overflow :
    let s := decodeState [0x01, 1, 2, 3, 4] 3 2 1 5
    fetches s 1 ∧ s.rp.toNat + 1 + 2 * (1 + 1) ≤ s.inLen.toNat ∧ s.cursor.toNat + (1 + 1) ≤ s.w.toNat ∧
      s.w.toNat * s.h.toNat < s.pixCount.toNat + (1 + 1) := by decide

theorem witness_LitStep_completes :
    let s := decodeState [0x01, 1, 2, 3, 4] 3 2 1 4
    fetches s 1 ∧ s.rp.toNat + 1 + 2 * (1 + 1) ≤ s.inLen.toNat ∧ runFits (1 + 1) s ∧ frameRegs s := by
  unfold runFits frameRegs; decide

theorem witness_BlackStep :
    (let s := decodeState [0x21] 3 2 2 5
     fetches s (0x20 + 1) ∧ s.w.toNat < s.cursor.toNat + (1 + 1)) ∧
    (let s := decodeState [0x21] 3 2 1 5
     fetches s (0x20 + 1) ∧ s.cursor.toNat + (1 + 1) ≤ s.w.toNat ∧
        s.w.toNat * s.h.toNat < s.pixCount.toNat + (1 + 1)) ∧
    (let s := decodeState [0x21] 3 2 1 4
     fetches s (0x20 + 1) ∧ runFits (1 + 1) s ∧ frameRegs s) := by unfold runFits frameRegs; decide

theorem witness_RepStep :
    (let s := decodeState [0x41, 1] 3 2 1 4
     fetches s (0x40 + 1) ∧ s.inLen.toNat < s.rp.toNat + 3) ∧
    (let s := decodeState [0x41, 1, 2] 3 2 2 5
     fetches s (0x40 + 1) ∧ s.rp.toNat + 3 ≤ s.inLen.toNat ∧ s.w.toNat < s.cursor.toNat + (1 + 1)) ∧
    (let s := decodeState [0x41, 1, 2] 3 2 1 5
     fetches s (0x40 + 1) ∧ s.rp.toNat + 3 ≤ s.inLen.toNat ∧ s.cursor.toNat + (1 + 1) ≤ s.w.toNat ∧
        s.w.toNat * s.h.toNat < s.pixCount.toNat + (1 + 1)) ∧
    (let s := decodeState [0x41, 1, 2] 3 2 1 4
     fetches s (0x40 + 1) ∧ s.rp.toNat + 3 ≤ s.inLen.toNat ∧ runFits (1 + 1) s ∧ frameRegs s) := by
  unfold runFits frameRegs; decide

theorem frameInv_fullFrame : FrameInv (decodeState [0x9F] 3 2 0 6) := by
  refine ⟨by unfold frameRegs; decide, by decide, by decide, by decide, ⟨2, by decide, by decide⟩, by decide⟩

theorem witness_NlStep :
    (let s := decodeState [0x9F] 3 2 0 6
     fetches s (0x80 + 31) ∧ s.cursor.toNat ≤ s.w.toNat ∧ FrameInv s ∧
        s.w.toNat * s.h.toNat < s.pixCount.toNat + (s.w.toNat - s.cursor.toNat)) ∧
    (let s := decodeState [0x80] 3 2 3 6
     fetches s (0x80 + 0) ∧ s.cursor.toNat ≤ s.w.toNat ∧
        s.pixCount.toNat + (s.w.toNat - s.cursor.toNat) ≤ s.w.toNat * s.h.toNat ∧
        s.w.toNat * s.h.toNat ≤ s.fbCapacity ∧ frameRegs s) :=
  ⟨⟨by decide, by decide, frameInv_fullFrame, by decide⟩, by unfold frameRegs; decide⟩

theorem witness_IllegalStep : fetches (decodeState [0x60] 3 2 1 4) 0x60 ∧ fetches (decodeState [0xFF] 3 2 1 4) 0xFF := by
  decide

theorem witness_OpcodeFrame :
    let s := decodeState [0x21] 3 2 1 4
    frameRegs s ∧ exec (.black 1) s = .next (after s) := ⟨by unfold frameRegs; decide, rfl⟩

theorem witness_OpcodeDependsOnlyOnItsRegisters :
    let s := decodeState [0x21] 3 2 1 4
    let s' := { s with out := [1], fbEpoch := 7, fb := [] }
    frameRegs s ∧ s'.w = s.w ∧ s'.h = s.h ∧ s'.cursor = s.cursor ∧ s'.pixCount = s.pixCount ∧ s'.inLen = s.inLen ∧
      s'.rp = s.rp ∧ s'.unpackMode = s.unpackMode ∧ s'.fbCapacity = s.fbCapacity ∧ s'.phase = s.phase ∧
      s'.errCode = s.errCode ∧ s'.errPos = s.errPos ∧ exec (.black 1) s = .next (after s) :=
  ⟨by unfold frameRegs; decide, rfl, rfl, rfl, rfl, rfl, rfl, rfl, rfl, rfl, rfl, rfl, rfl⟩

theorem witness_AppendSeqIsSinglePixelRuns :
    let s := decodeState [] 3 2 1 4
    runFits [Pixel.black, Pixel.black].length s ∧ frameRegs s ∧ s.phase ≠ .fault := by
  unfold runFits frameRegs; decide

theorem witness_BlackIsRepOfColorZero :
    let s := decodeState [0x21, 0, 0] 3 2 1 4
    s.rp.toNat + 3 ≤ s.inLen.toNat ∧ exec (.black 1) s = .next (after s) ∧ (after s).phase = s.phase ∧
      s.phase ≠ .fault := ⟨by decide, rfl, by decide, by decide⟩

theorem frameInv_decodeState : FrameInv (decodeState [0x21] 3 2 1 4) := by
  refine ⟨by unfold frameRegs; decide, by decide, by decide, by decide, ⟨1, by decide, by decide⟩, by decide⟩

theorem coreInv_decodeState : CoreInv (decodeState [0x21] 3 2 1 4) := by
  refine ⟨frameInv_decodeState, ?_⟩
  show headerAccepted _ ∧ _
  unfold headerAccepted
  decide

theorem coreInv_emitState : CoreInv (emitState 61) := by
  refine ⟨⟨by unfold frameRegs; decide, by decide, by decide, by decide, ⟨0, by decide, by decide⟩, by decide⟩, ?_⟩
  show headerAccepted _ ∧ _ ≤ _ ∧ frameComplete _ ∧ _
  unfold headerAccepted frameComplete
  decide

theorem coreInv_headerState : CoreInv (headerState [1, 0, 0, 0, 1, 0, 0, 0, 0x20]) := by
  refine ⟨⟨by unfold frameRegs; decide, by decide, by decide, by decide, ⟨0, by decide, by decide⟩, by decide⟩, ?_⟩
  show runCleared _ ∧ _
  unfold runCleared
  decide

theorem witness_RasterOrder :
    let s := decodeState [0x21] 3 2 1 4
    FrameInv s ∧ s.cursor.toNat + 1 < s.w.toNat ∧ s.phase = .decode ∧ exec (.black 1) s = .next (after s) ∧
      (after s).phase = .decode ∧ (pixelRun (.black 1) s)[1]? = some Pixel.black :=
  ⟨frameInv_decodeState, by decide, by decide, rfl, by decide, by decide⟩

/-- A LIT in row 1 from column 1 of a 3x2 frame: its second pixel is frame pixel (1, 2), entry 5 (R146, R69). -/
theorem test_lit_raster :
    let s := decodeState [0x01, 0x00, 0x78, 0xC0, 0x03] 3 2 1 4
    (after s).phase = .decode ∧ fbRead (after s) (1 * 3 + 2) = ⟨0, 0x78, 0⟩ := by decide

theorem witness_HeaderStep :
    (let s := headerState [1, 0, 0, 0, 1, 0, 0]
     blockTurn s = true ∧ s.phase = .header ∧ s.inLen.toNat < 8) ∧
    (let s := headerState [101, 0, 0, 0, 1, 0, 0, 0]
     blockTurn s = true ∧ s.phase = .header ∧ 8 ≤ s.inLen.toNat ∧ (inByte s 0).toNat * 1 > s.fbCapacity) ∧
    (let s := headerState [100, 0, 0, 0, 1, 0, 0, 0]
     blockTurn s = true ∧ s.phase = .header ∧ 8 ≤ s.inLen.toNat ∧
        ¬ ((inByte s 0).toNat + 256 * (inByte s 1).toNat = 0 ∨ (inByte s 4).toNat + 256 * (inByte s 5).toNat = 0 ∨
          ((inByte s 0).toNat + 256 * (inByte s 1).toNat) * ((inByte s 4).toNat + 256 * (inByte s 5).toNat) >
            s.fbCapacity ∨ 54 + 1 * ((3 * 100 + 3) / 4 * 4) > 0xFFFFFFFF)) := by decide

theorem witness_ReservedHeaderBytesIgnored :
    let s := headerState [1, 0, 0, 0, 1, 0, 0, 0, 0x20]
    blockTurn s = true ∧ s.phase = .header ∧ step s = .next (after s) := ⟨by decide, by decide, rfl⟩

theorem witness_TerminalCheck :
    (let s := decodeState [] 3 2 3 6
     blockTurn s = true ∧ s.phase = .decode ∧ s.inLen.toNat ≤ s.rp.toNat ∧
        outputLength s.w.toNat s.h.toNat ≤ 0xFFFFFFFF ∧ s.pixCount.toNat = s.w.toNat * s.h.toNat) ∧
    (let s := decodeState [] 3 2 2 5
     blockTurn s = true ∧ s.phase = .decode ∧ s.inLen.toNat ≤ s.rp.toNat ∧
        outputLength s.w.toNat s.h.toNat ≤ 0xFFFFFFFF ∧ s.pixCount.toNat ≠ s.w.toNat * s.h.toNat) := by decide

theorem witness_DirectByteIsOutputByte : 61 < outputLength 2 1 := by decide

theorem witness_HeaderFields : 65535 < 65536 ∧ 21845 < 65536 := by decide

theorem witness_RowsBottomUpAndPadded : 2 < 3 ∧ 4 < 5 ∧ 0 < 5 % 4 := by decide

theorem witness_EmitStep :
    (let s := withMove (.answer .refuse) (emitState 0)
     s.phase = .emit ∧ s.host = [.answer .refuse] ∧ frameComplete s ∧ s.outPos.toNat < s.outLen.toNat ∧
        s.w.toNat * s.h.toNat ≤ s.fbCapacity) ∧
    (let s := withMove (.answer .accept) (emitState 61)
     s.phase = .emit ∧ s.host = [.answer .accept] ∧ frameComplete s ∧ s.outPos.toNat < s.outLen.toNat ∧
        s.w.toNat * s.h.toNat ≤ s.fbCapacity) := by unfold frameComplete; decide

theorem witness_FaultsArePrecise :
    let s := decodeState [0x60] 3 2 1 4
    step s = .next (after s) ∧ s.phase ≠ .fault ∧ (after s).phase = .fault := ⟨rfl, by decide, by decide⟩

theorem witness_PhaseTransitions : Phase.decode ≠ Phase.emit := by decide

theorem witness_PhaseChangeCauses :
    let s := decodeState [] 3 2 3 6
    step s = .next (after s) ∧ s.phase ≠ (after s).phase := ⟨rfl, by decide⟩

theorem witness_NoEnabledStepChangesNothing :
    (blockTurn State.reset = true ∧ busy State.reset.phase = false) ∧
    (blockTurn (emitState 0) = true ∧ (emitState 0).phase = .emit) ∧
    ((withMove (.answer .refuse) (decodeState [0x21] 3 2 1 4)).host = [.answer .refuse] ∧
      (decodeState [0x21] 3 2 1 4).phase ≠ .emit) := by decide

theorem witness_StartCommand :
    (let s := withMove (.write 0 1) State.reset
     s.host = [.write 0 1] ∧ (1 : Word).getLsbD 0 = true ∧ busy s.phase = false) ∧
    (let s := withMove (.write 0 1) (emitState 0)
     s.host = [.write 0 1] ∧ (1 : Word).getLsbD 0 = true ∧ busy s.phase = true) := by decide

theorem witness_ResetSetsEveryRegister : (withMove .reset (emitState 5)).host = [.reset] := rfl

theorem witness_ConfigurationWrites :
    ((withMove (.write 1 3) State.reset).host = [.write 1 3] ∧ busy (withMove (.write 1 3) State.reset).phase = false) ∧
    ((withMove (.write 2 9) (emitState 0)).host = [.write 2 9] ∧ busy (withMove (.write 2 9) (emitState 0)).phase = true) ∧
    ((withMove (.write 0 1) (emitState 0)).host = [.write 0 1] ∧ busy (withMove (.write 0 1) (emitState 0)).phase = true) := by
  decide

theorem witness_OtherRegisterWritesIgnored :
    (withMove (.write 3 9) State.reset).host = [.write 3 9] ∧
    (withMove (.write 0 2) State.reset).host = [.write 0 2] ∧ (2 : Word).toNat % 2 = 0 := by decide

/-- Every register, the first absent number, every phase and every error code. -/
theorem witness_RegisterReads :
    ∀ reg < 14, ∀ p ∈ [Phase.idle, .header, .decode, .emit, .done, .fault],
      ∀ c ∈ [ErrCode.none, .ioError, .truncatedHeader, .truncatedOpcode, .unrecognizedOpcode, .incompleteFrame,
        .rowOverrun, .frameOverflow, .invalidDimensions],
        (withMove (.read reg) { emitState 5 with phase := p, errCode := c }).host = [.read reg] :=
  fun _ _ _ _ _ _ => rfl

theorem witness_LoadPlacesOneByte :
    let s := withMove (.load 0xFFFFFFFE 7) State.reset
    s.host = [.load 0xFFFFFFFE 7] ∧ busy s.phase = false ∧ (0xFFFFFFFE : Word).toNat < 0xFFFFFFFF := by decide

theorem witness_LoadStops :
    (let s := withMove (.load 0 7) (emitState 0)
     s.host = [.load 0 7] ∧ busy s.phase = true) ∧
    (let s := withMove (.load 0xFFFFFFFF 7) State.reset
     s.host = [.load 0xFFFFFFFF 7] ∧ busy s.phase = false ∧ (0xFFFFFFFF : Word).toNat = 0xFFFFFFFF) := by decide

theorem witness_RunKeepsItsConfiguration :
    let s := withMove (.write 2 9) (emitState 0)
    step s = .next (after s) ∧ busy s.phase = true := ⟨rfl, by decide⟩

theorem witness_DimensionsFixedForARun :
    let s := headerState [1, 0, 0, 0, 1, 0, 0, 0, 0x20]
    step s = .next (after s) ∧ ((after s).w ≠ s.w ∨ (after s).h ≠ s.h) := ⟨rfl, by decide⟩

theorem witness_StoreIsAppendOnly :
    let s := decodeState [0x21] 3 2 1 4
    frameRegs s ∧ step s = .next (after s) ∧ s.host.head? ≠ some .reset :=
  ⟨by unfold frameRegs; decide, rfl, by decide⟩

theorem witness_ReadCursorOnlyAdvances :
    let s := decodeState [0x21] 3 2 1 4
    CoreInv s ∧ step s = .next (after s) ∧ busy s.phase = true ∧ busy (after s).phase = true :=
  ⟨coreInv_decodeState, rfl, by decide, by decide⟩

theorem witness_AppendPastTheStoreStops :
    (let s := { decodeState [0x01, 1, 2, 3, 4] 3 2 1 4 with fbCapacity := 5 }
     s.cursor.toNat + (1 + 1) ≤ s.w.toNat ∧ s.pixCount.toNat + (1 + 1) ≤ s.w.toNat * s.h.toNat ∧
        s.fbCapacity < s.pixCount.toNat + (1 + 1) ∧ s.rp.toNat + 3 ≤ s.inLen.toNat ∧
        (Instr.lit 1 [0x0201, 0x0403]).wf = true ∧ s.rp.toNat + 1 + 2 * (1 + 1) ≤ s.inLen.toNat) ∧
    (let s := { decodeState [0x80] 3 2 1 4 with fbCapacity := 5 }
     s.pixCount.toNat + (s.w.toNat - s.cursor.toNat) ≤ s.w.toNat * s.h.toNat ∧
        s.fbCapacity < s.pixCount.toNat + (s.w.toNat - s.cursor.toNat)) := by decide

theorem witness_OnlyHostLoadsStop :
    (CoreInv (withMove (.load 0xFFFFFFFF 7) { State.reset with fbCapacity := 100 }) ∧
      step (withMove (.load 0xFFFFFFFF 7) { State.reset with fbCapacity := 100 }) = .fault .noInputOffset) ∧
    (CoreInv (withMove (.load 0 7) (emitState 61)) ∧
      step (withMove (.load 0 7) (emitState 61)) = .refused .inputLoadWhileBusy) := by
  refine ⟨⟨⟨⟨by unfold frameRegs; decide, by decide, by decide, by decide, ⟨0, by decide, by decide⟩, by decide⟩, ?_⟩, rfl⟩,
    coreInv_emitState, rfl⟩
  show runCleared _ ∧ _
  unfold runCleared
  decide

theorem witness_EveryStepKeepsTheInvariant :
    CoreInv (decodeState [0x21] 3 2 1 4) ∧
      step (decodeState [0x21] 3 2 1 4) = .next (after (decodeState [0x21] 3 2 1 4)) := ⟨coreInv_decodeState, rfl⟩

theorem witness_EveryStepKeepsStorageCanonical :
    StorageInv (decodeState [0x21] 3 2 1 4) ∧
      step (decodeState [0x21] 3 2 1 4) = .next (after (decodeState [0x21] 3 2 1 4)) :=
  ⟨⟨by decide, by decide⟩, rfl⟩

/-- The last state of P1 before the last byte is accepted, with the first 61 bytes in the sink. -/
def emittedState : State := { withMove (.answer .accept) (emitState 61) with out := (outputBytes (emitState 61)).take 61 }

theorem witness_EveryStepKeepsTheSinksBytes :
    CoreInv emittedState ∧ SinkInv emittedState ∧ step emittedState = .next (after emittedState) :=
  ⟨coreInv_emitState, ⟨[], rfl⟩, rfl⟩

theorem witness_DoneLetsInLenFallBelowRp :
    let s := withMove (.write 2 0) { emitState 62 with phase := .done }
    s.phase = .done ∧ s.host = [.write 2 0] ∧ (0 : Word).toNat < s.rp.toNat := by decide

theorem witness_DecodingEnds :
    CoreInv (decodeState [0x21] 3 2 1 4) ∧ (decodeState [0x21] 3 2 1 4).phase = .decode ∧
      (decodeState [0x21] 3 2 1 4).host = [] := ⟨coreInv_decodeState, rfl, rfl⟩

theorem witness_AcceptingSinkGetsTheOutput :
    CoreInv emittedState ∧ emittedState.phase = .emit ∧
      emittedState.host = List.replicate (emittedState.outLen.toNat - emittedState.outPos.toNat) (.answer .accept) :=
  ⟨coreInv_emitState, rfl, by decide⟩

theorem witness_EveryRunEnds :
    (CoreInv emittedState ∧ busy emittedState.phase = true ∧
      ∀ m ∈ emittedState.host, m ≠ .reset ∧ ∀ offset b, m ≠ .load offset b) ∧
    (let s := { headerState [1, 0, 0, 0, 1, 0, 0, 0, 0x20] with host := [.read 3, .answer .refuse, .idle, .write 0 1] }
     CoreInv s ∧ busy s.phase = true ∧ ∀ m ∈ s.host, m ≠ .reset ∧ ∀ offset b, m ≠ .load offset b) :=
  ⟨⟨coreInv_emitState, rfl, by simp [emittedState, withMove]⟩, coreInv_headerState, rfl, by simp⟩

/-- The run of one byte still to emit: its answer ends it, a step counted if the byte is emitted (R280) and none if it is
refused (R214; log 23). -/
theorem test_run_counts :
    let refused := { emittedState with host := [.answer .refuse] }
    runBlockSteps 5 emittedState = 1 ∧ runState 5 emittedState = runState 1 emittedState ∧
      runBlockSteps 5 refused = 0 ∧ runState 5 refused = .next (after refused) := ⟨by decide, rfl, by decide, rfl⟩

/-- The opcodes of a stream: LIT 1, NL.k 31, and one byte short of a REP. -/
theorem test_stream_opcodes :
    streamOpcodes (headerState [1, 0, 0, 0, 1, 0, 0, 0, 0x00, 0x34, 0x12, 0x9F]) = some [.lit 0 [0x1234], .nl 31] ∧
    streamOpcodes (headerState [1, 0, 0, 0, 1, 0, 0, 0, 0x9F, 0x40, 0x34]) = none := by decide

end Sys2Proof.Tests
end

/-! # What every step keeps (spec/10_state.md)

One inversion lemma for a step that answers a next state (`step_event`), the effect of a completed opcode said once
(`Completed`), and from them the statements about the state and the register map. -/

namespace Sys2Proof.Machine

/-! ## Arithmetic of a frame -/

/-- Two 16-bit dimensions have an area a 32-bit register holds (R25). -/
theorem frameRegs_area_lt {s : State} (h : frameRegs s) : s.w.toNat * s.h.toNat < 2 ^ 32 := by
  obtain ⟨hw, hh⟩ := h
  have := Nat.mul_lt_mul'' hw hh
  omega

/-! ## A completed opcode -/

/-- `t` is `s` after the opcode `i` completed: its run fitted the frame and the store, its bytes were in the input, CURSOR
moved by the run or, after a newline, to column 0, and only RP, CURSOR and the appends were written (R24, R142, R145). -/
structure Completed (i : Instr) (s t : State) : Prop where
  inFrame : s.pixCount.toNat + pixelsAppended i s ≤ s.w.toNat * s.h.toNat
  inStore : s.pixCount.toNat + pixelsAppended i s ≤ s.fbCapacity
  inInput : opcodeLength i = 1 ∨ s.rp.toNat + opcodeLength i ≤ s.inLen.toNat
  column : (s.cursor.toNat + pixelsAppended i s ≤ s.w.toNat ∧ t.cursor.toNat = s.cursor.toNat + pixelsAppended i s) ∨
    (pixelsAppended i s = padCount s ∧ t.cursor = 0)
  effect : t = { fbAppendAll (pixelRun i s) s with rp := s.rp + BitVec.ofNat 32 (opcodeLength i), cursor := t.cursor }

/-- A register that takes a small step within 32 bits takes it exactly. -/
theorem toNat_add_ofNat {x : Word} {n : Nat} (h : x.toNat + n < 2 ^ 32) :
    (x + BitVec.ofNat 32 n).toNat = x.toNat + n := by
  simp only [BitVec.toNat_add, BitVec.toNat_ofNat]
  omega

/-- An opcode that answers a next state took a fault at RP or completed. -/
theorem exec_completed {i : Instr} {s t : State} (h : exec i s = .next t) :
    (∃ code ∈ opcodeFaults, t = raiseFault code s.rp s) ∨ Completed i s t := by
  rcases exec_next h with hfault | ⟨⟨hrow, hframe, hstore, ht⟩, hin⟩ | ⟨cnt, rfl, hframe, hstore, ht⟩
  · exact .inl hfault
  · rw [pixelRun_length] at hrow hframe hstore ht
    refine .inr ⟨hframe, hstore, hin, .inl ⟨hrow, ?_⟩, ?_⟩
    · have := s.w.isLt
      simpa [ht] using toNat_add_ofNat (x := s.cursor) (n := pixelsAppended i s) (by omega)
    · subst ht
      simp [advanceRp, moveCursor]
  · refine .inr ⟨hframe, hstore, .inl rfl, .inr ⟨rfl, by simp [ht]⟩, ?_⟩
    subst ht
    simp [advanceRp, homeCursor, pixelRun, opcodeLength]

namespace Completed

variable {i : Instr} {s t : State}

/-- A completed opcode writes RP, CURSOR, PIX_COUNT and the pixel store, and nothing else (R34). -/
theorem frame (h : Completed i s t) :
    t = { s with rp := t.rp, cursor := t.cursor, pixCount := t.pixCount, fb := t.fb } := by
  rw [h.effect, fbAppendAll_eq]

theorem rp_eq (h : Completed i s t) : t.rp = s.rp + BitVec.ofNat 32 (opcodeLength i) := by
  rw [h.effect]

theorem fb_eq (h : Completed i s t) : t.fb = (fbAppendAll (pixelRun i s) s).fb := by
  rw [h.effect]

theorem pixCount_eq (h : Completed i s t) : t.pixCount = s.pixCount + BitVec.ofNat 32 (pixelsAppended i s) := by
  rw [h.effect]
  simp

theorem phase_eq (h : Completed i s t) : t.phase = s.phase := by rw [h.frame]
theorem w_eq (h : Completed i s t) : t.w = s.w := by rw [h.frame]
theorem h_eq (h : Completed i s t) : t.h = s.h := by rw [h.frame]
theorem inLen_eq (h : Completed i s t) : t.inLen = s.inLen := by rw [h.frame]
theorem input_eq (h : Completed i s t) : t.input = s.input := by rw [h.frame]
theorem unpackMode_eq (h : Completed i s t) : t.unpackMode = s.unpackMode := by rw [h.frame]

theorem pixCount_toNat (h : Completed i s t) (hr : frameRegs s) :
    t.pixCount.toNat = s.pixCount.toNat + pixelsAppended i s := by
  have harea := frameRegs_area_lt hr
  have hframe := h.inFrame
  rw [h.pixCount_eq, toNat_add_ofNat (by omega)]

/-- The run's entries are its pixels in order, and every other entry is as before (R28, R142). -/
theorem get (h : Completed i s t) (hr : frameRegs s) (k : Nat) :
    cellsGet t.fb k =
      if s.pixCount.toNat ≤ k ∧ k < s.pixCount.toNat + pixelsAppended i s then (pixelRun i s)[k - s.pixCount.toNat]?
      else cellsGet s.fb k := by
  have harea := frameRegs_area_lt hr
  have hframe := h.inFrame
  rw [h.fb_eq, fbAppendAll_get _ _ (by rw [pixelRun_length]; omega), pixelRun_length]

/-- The entries outside the run are as before (R28). -/
theorem get_outside (h : Completed i s t) (hr : frameRegs s) {k : Nat}
    (hk : k < s.pixCount.toNat ∨ s.pixCount.toNat + pixelsAppended i s ≤ k) : cellsGet t.fb k = cellsGet s.fb k := by
  rw [h.get hr, if_neg (by omega)]

/-- RP moves past the opcode's bytes and stays in the input, if there was an unread byte (R24). -/
theorem rp_toNat (h : Completed i s t) (hu : s.rp.toNat < s.inLen.toNat) :
    t.rp.toNat = s.rp.toNat + opcodeLength i ∧ t.rp.toNat ≤ s.inLen.toNat := by
  have hin : s.rp.toNat + opcodeLength i ≤ s.inLen.toNat := by
    rcases h.inInput with h1 | h1 <;> omega
  have := s.inLen.isLt
  have heq : t.rp.toNat = s.rp.toNat + opcodeLength i := by rw [h.rp_eq, toNat_add_ofNat (by omega)]
  exact ⟨heq, by omega⟩

end Completed

/-! ## Steps that answer a next state -/

/-- Why a fault is taken, with its code and its position (R230, R235). -/
inductive FaultCause (s : State) : ErrCode → Word → Prop
  | header (code : ErrCode) (turn : blockTurn s = true) (phase : s.phase = .header)
      (mem : code = .truncatedHeader ∨ code = .invalidDimensions) : FaultCause s code 0
  | opcode (code : ErrCode) (turn : blockTurn s = true) (phase : s.phase = .decode)
      (unread : s.rp.toNat < s.inLen.toNat) (mem : code ∈ opcodeFaults) : FaultCause s code s.rp
  | inputEnd (turn : blockTurn s = true) (phase : s.phase = .decode) (exhausted : s.inLen.toNat ≤ s.rp.toNat) :
      FaultCause s .incompleteFrame s.rp
  | refusal (move : s.host.head? = some (.answer .refuse)) (phase : s.phase = .emit)
      (unsent : s.outPos.toNat < s.outLen.toNat) : FaultCause s .ioError s.outPos

/-- What a step that answers a next state can be, with what made it and the state it leads to (R161, R23). -/
inductive StepEvent (s : State) : State → Prop
  | nothing : StepEvent s (popHost s)
  | headerAccepted (turn : blockTurn s = true) (phase : s.phase = .header) (length : 8 ≤ s.inLen.toNat)
      (dimensions : dimensionsOk (inLE16 s 0).toNat (inLE16 s 4).toNat s.fbCapacity = true) :
      StepEvent s (acceptHeader (inLE16 s 0) (inLE16 s 4) (popHost s))
  | opcode (i : Instr) (t : State) (turn : blockTurn s = true) (phase : s.phase = .decode)
      (unread : s.rp.toNat < s.inLen.toNat) (completed : Completed i (popHost s) t) : StepEvent s t
  | frameEnd (turn : blockTurn s = true) (phase : s.phase = .decode) (exhausted : s.inLen.toNat ≤ s.rp.toNat)
      (full : s.pixCount.toNat = s.w.toNat * s.h.toNat) :
      StepEvent s { popHost s with
        outLen := BitVec.ofNat 32 (outputLength s.w.toNat s.h.toNat), outPos := 0, phase := .emit }
  | accepted (move : s.host.head? = some (.answer .accept)) (phase : s.phase = .emit)
      (unsent : s.outPos.toNat < s.outLen.toNat) : StepEvent s (acceptByte (offeredByte s) (popHost s))
  | fault (code : ErrCode) (pos : Word) (cause : FaultCause s code pos) : StepEvent s (raiseFault code pos (popHost s))
  | start (v : Word) (move : s.host.head? = some (.write 0 v)) (bit : v.getLsbD 0 = true)
      (quiescent : busy s.phase = false) : StepEvent s (startRun (popHost s))
  | setMode (mode : UnpackMode) (quiescent : busy s.phase = false) : StepEvent s { popHost s with unpackMode := mode }
  | setLength (v : Word) (quiescent : busy s.phase = false) : StepEvent s { popHost s with inLen := v }
  | read (reg : Nat) : StepEvent s (hostRead reg (popHost s))
  | load (offset : Word) (b : Byte) (quiescent : busy s.phase = false) :
      StepEvent s { popHost s with input := Memory.write s.input offset.toNat b }
  | reset (move : s.host.head? = some .reset) : StepEvent s (resetBlock (popHost s))

theorem headerStep_event {s t : State} (ht : blockTurn s = true) (hp : s.phase = .header)
    (h : headerStep (popHost s) = .next t) : StepEvent s t := by
  rcases headerStep_cases (popHost s) with ⟨_, he⟩ | ⟨_, _, he⟩ | ⟨h1, h2, he⟩ <;> rw [he] at h <;> cases h
  · exact .fault _ _ (.header _ ht hp (.inl rfl))
  · exact .fault _ _ (.header _ ht hp (.inr rfl))
  · exact .headerAccepted ht hp h1 h2

theorem terminalCheck_event {s t : State} (ht : blockTurn s = true) (hp : s.phase = .decode)
    (hend : s.inLen.toNat ≤ s.rp.toNat) (h : terminalCheck (popHost s) = .next t) : StepEvent s t := by
  rcases terminalCheck_cases (popHost s) with ⟨h1, he⟩ | ⟨_, he⟩ <;> rw [he] at h <;> cases h
  · exact .frameEnd ht hp hend h1
  · exact .fault _ _ (.inputEnd ht hp hend)

theorem decodeStep_event {s t : State} (ht : blockTurn s = true) (hp : s.phase = .decode)
    (h : decodeStep (popHost s) = .next t) : StepEvent s t := by
  rcases decodeStep_cases (popHost s) with ⟨hend, he⟩ | ⟨hu, i, _, _, he⟩ | ⟨hu, _, he⟩ <;> rw [he] at h
  · exact terminalCheck_event ht hp hend h
  · rcases exec_completed h with ⟨code, hmem, rfl⟩ | hdone
    · exact .fault _ _ (.opcode code ht hp hu hmem)
    · exact .opcode i t ht hp hu hdone
  · cases h
    exact .fault _ _ (.opcode _ ht hp hu (by simp [opcodeFaults]))

theorem blockStep_event {s t : State} (ht : blockTurn s = true) (h : blockStep (popHost s) = .next t) :
    StepEvent s t := by
  have quiet : busy s.phase = false ∨ s.phase = .emit → StepEvent s t := fun hq => by
    rw [blockStep_idle (s := popHost s) hq] at h
    cases h
    exact .nothing
  cases hp : s.phase with
  | header => exact headerStep_event ht hp (by simpa [blockStep, hp] using h)
  | decode => exact decodeStep_event ht hp (by simpa [blockStep, hp] using h)
  | emit => exact quiet (.inr hp)
  | idle | done | fault => exact quiet (.inl (by rw [hp]; rfl))

theorem sinkAnswers_event {s t : State} {a : SinkAnswer} (hm : s.host.head? = some (.answer a))
    (h : sinkAnswers a (popHost s) = .next t) : StepEvent s t := by
  by_cases hp : s.phase = .emit
  · rw [sinkAnswers_emit a (s := popHost s) hp] at h
    rcases emitStep_cases a (popHost s) with ⟨_, he⟩ | ⟨_, _, he⟩ | ⟨h1, _, ⟨rfl, he⟩ | ⟨rfl, he⟩⟩ <;>
      rw [he] at h <;> cases h
    · exact .fault _ _ (.refusal hm hp h1)
    · exact .accepted hm hp h1
  · rw [sinkAnswers_other a (s := popHost s) hp] at h
    cases h
    exact .nothing

theorem writeReg_event {s : State} {reg : Nat} {v : Word} (hm : s.host.head? = some (.write reg v)) :
    StepEvent s (writeReg reg v (popHost s)) := by
  rcases writeReg_cases reg v (popHost s) with he | ⟨rfl, hv, hq, he⟩ | ⟨rfl, hq, he⟩ | ⟨rfl, hq, he⟩ <;> rw [he]
  · exact .nothing
  · exact .start v hm hv hq
  · exact .setMode _ hq
  · exact .setLength v hq

/-- Every step that answers a next state is one of the events (R161). -/
theorem step_event {s t : State} (h : step s = .next t) : StepEvent s t := by
  rcases step_cases s with ⟨ht, he⟩ | ⟨reg, v, hm, he⟩ | ⟨reg, _, he⟩ | ⟨offset, b, _, he⟩ | ⟨a, hm, he⟩ | ⟨hm, he⟩ <;>
    rw [he] at h
  · exact blockStep_event ht h
  · cases h
    exact writeReg_event hm
  · cases h
    exact .read reg
  · rcases loadInput_cases offset b (popHost s) with ⟨_, hl⟩ | ⟨_, _, hl⟩ | ⟨hq, _, hl⟩ <;> rw [hl] at h <;> cases h
    exact .load offset b hq
  · exact sinkAnswers_event hm h
  · cases h
    exact .reset hm

namespace FaultCause

variable {s : State} {code : ErrCode} {pos : Word}

theorem code_ne_none (h : FaultCause s code pos) : code ≠ .none := by
  cases h with
  | header _ _ _ mem => rcases mem with rfl | rfl <;> decide
  | opcode _ _ _ _ mem => rintro rfl; simp [opcodeFaults] at mem
  | inputEnd | refusal => decide

theorem busy_phase (h : FaultCause s code pos) : s.phase = .header ∨ s.phase = .decode ∨ s.phase = .emit := by
  cases h with
  | header _ _ phase _ => exact .inl phase
  | opcode _ _ phase | inputEnd _ phase => exact .inr (.inl phase)
  | refusal _ phase => exact .inr (.inr phase)

theorem agent (h : FaultCause s code pos) : blockTurn s = true ∨ s.host.head? = some (.answer .refuse) := by
  cases h with
  | header _ turn | opcode _ turn | inputEnd turn => exact .inl turn
  | refusal move => exact .inr move

end FaultCause

end Sys2Proof.Machine

namespace Sys2Proof.Machine

/-! ## The invariant, phase by phase (R31, R32, R33) -/

section
variable {s t : State}

theorem phaseInv_header (hp : s.phase = .header) :
    PhaseInv s ↔ runCleared s ∧ s.errCode = .none ∧ s.errPos = 0 := by
  rw [PhaseInv, hp]

theorem phaseInv_decode (hp : s.phase = .decode) :
    PhaseInv s ↔ headerAccepted s ∧ s.rp.toNat ≤ s.inLen.toNat ∧ s.outPos = 0 ∧ s.outLen = 0 ∧ s.errCode = .none ∧
      s.errPos = 0 := by
  rw [PhaseInv, hp]

theorem phaseInv_emit (hp : s.phase = .emit) :
    PhaseInv s ↔ headerAccepted s ∧ s.rp.toNat ≤ s.inLen.toNat ∧ frameComplete s ∧ s.outPos.toNat < s.outLen.toNat ∧
      s.errCode = .none ∧ s.errPos = 0 := by
  rw [PhaseInv, hp]

theorem phaseInv_done (hp : s.phase = .done) :
    PhaseInv s ↔ headerAccepted s ∧ frameComplete s ∧ s.outPos = s.outLen ∧ s.errCode = .none ∧ s.errPos = 0 := by
  rw [PhaseInv, hp]

/-- An empty frame of 16-bit dimensions that the store can hold has its accounting (R140). -/
theorem frameInv_of_empty (hr : frameRegs s) (hcap : s.w.toNat * s.h.toNat ≤ s.fbCapacity) (hc : s.cursor = 0)
    (hp : s.pixCount = 0) : FrameInv s := by
  refine ⟨hr, by simp [hc], by simp [hp], hcap, ⟨0, by simp, by simp [hc, hp]⟩, fun i hi => ?_⟩
  simp [hp] at hi

theorem frameInv_of_runCleared (h : runCleared s) : FrameInv s := by
  obtain ⟨hw, hh, _, hc, hp, _, _⟩ := h
  exact frameInv_of_empty (by simp [frameRegs, hw, hh]) (by simp [hw]) hc hp

/-! ## What keeps the invariant -/

/-- The header step accepts only frames the block can hold and serialize (R162, R163). -/
theorem acceptHeader_coreInv {w h : Color} (hi : CoreInv s) (hp : s.phase = .header) (hlen : 8 ≤ s.inLen.toNat)
    (hd : dimensionsOk w.toNat h.toNat s.fbCapacity = true) : CoreInv (acceptHeader w h s) := by
  obtain ⟨h1, h2, hcap, hout⟩ := (dimensionsOk_iff _ _ _).1 hd
  obtain ⟨⟨_, _, _, _, _, hpos, hlen0⟩, hcode, herr⟩ := (phaseInv_header hp).1 hi.2
  have hw := w.isLt
  have hh := h.isLt
  have ew : (acceptHeader w h s).w.toNat = w.toNat := by simp; omega
  have eh : (acceptHeader w h s).h.toNat = h.toNat := by simp; omega
  refine ⟨frameInv_of_empty ⟨by omega, by omega⟩ (by rw [ew, eh]; exact hcap) rfl rfl, (phaseInv_decode rfl).2 ?_⟩
  exact ⟨⟨by omega, by omega, by rw [ew, eh]; exact hout, by simp⟩, by simpa using hlen, hpos, hlen0, hcode, herr⟩

/-- A completed opcode keeps the frame's accounting (R26, R27, R33): its pixels continue the row, or a newline ends the
row and `rows` counts it. -/
theorem Completed.frameInv {i : Instr} (hc : Completed i s t) (hi : FrameInv s) (hw : 1 ≤ s.w.toNat) : FrameInv t := by
  obtain ⟨hr, hcur, hpix, hcap, ⟨rows, hrows, hcount⟩, hlisted⟩ := hi
  have hn := hc.pixCount_toNat hr
  have hframe := hc.inFrame
  have ecap : t.fbCapacity = s.fbCapacity := by rw [hc.frame]
  unfold FrameInv frameRegs
  rw [hc.w_eq, hc.h_eq, ecap]
  refine ⟨hr, ?_, by omega, hcap, ?_, fun k hk => ?_⟩
  · rcases hc.column with ⟨hrow, hcol⟩ | ⟨_, hcol⟩
    · omega
    · simp [hcol]
  · rcases hc.column with ⟨hrow, hcol⟩ | ⟨hpad, hcol⟩
    · exact ⟨rows, hrows, by omega⟩
    · have hnext : t.pixCount.toNat = (rows + 1) * s.w.toNat := by
        rw [hn, hpad, hcount, padCount, Nat.succ_mul]
        omega
      refine ⟨rows + 1, ?_, by simp [hcol, hnext]⟩
      refine Nat.le_of_mul_le_mul_right (c := s.w.toNat) ?_ hw
      rw [← hnext, Nat.mul_comm s.h.toNat]
      omega
  · rw [hc.get hr]
    split
    · rw [isSome_getElem?, pixelRun_length]
      omega
    · exact hlisted k (by omega)

theorem Completed.coreInv {i : Instr} (hc : Completed i s t) (hi : CoreInv s) (hp : s.phase = .decode)
    (hu : s.rp.toNat < s.inLen.toNat) : CoreInv t := by
  obtain ⟨hframe, hphase⟩ := hi
  obtain ⟨⟨hw, hh, hout, h8⟩, _, hrest⟩ := (phaseInv_decode hp).1 hphase
  obtain ⟨hrp, hle⟩ := hc.rp_toNat hu
  refine ⟨hc.frameInv hframe hw, (phaseInv_decode (hc.phase_eq.trans hp)).2 ?_⟩
  have hregs : t.outPos = s.outPos ∧ t.outLen = s.outLen ∧ t.errCode = s.errCode ∧ t.errPos = s.errPos := by
    rw [hc.frame]; simp
  obtain ⟨e1, e2, e3, e4⟩ := hregs
  rw [hc.inLen_eq, e1, e2, e3, e4]
  exact ⟨⟨by rwa [hc.w_eq], by rwa [hc.h_eq], by rwa [hc.w_eq, hc.h_eq], by omega⟩, hle, hrest⟩

/-- The terminal check of a complete frame sets OUT_LEN to a length of at least 54 that its register holds (R166, R201). -/
theorem frameEnd_coreInv (hi : CoreInv s) (hp : s.phase = .decode) (hfull : s.pixCount.toNat = s.w.toNat * s.h.toNat) :
    CoreInv { s with
      outLen := BitVec.ofNat 32 (outputLength s.w.toNat s.h.toNat), outPos := 0, phase := .emit } := by
  obtain ⟨hframe, hphase⟩ := hi
  obtain ⟨hacc, hle, _, _, hcode, herr⟩ := (phaseInv_decode hp).1 hphase
  have hlen : (BitVec.ofNat 32 (outputLength s.w.toNat s.h.toNat)).toNat = outputLength s.w.toNat s.h.toNat := by
    obtain ⟨_, _, hout, _⟩ := hacc
    rw [BitVec.toNat_ofNat]
    unfold Config.outputLimit at hout
    omega
  refine ⟨hframe, (phaseInv_emit rfl).2 ⟨hacc, hle, ⟨hfull, hlen⟩, ?_, hcode, herr⟩⟩
  show 0 < (BitVec.ofNat 32 (outputLength s.w.toNat s.h.toNat)).toNat
  rw [hlen, outputLength]
  omega

/-- An accepted byte moves OUT_POS towards OUT_LEN, and the last one ends the run (R214, R32). -/
theorem acceptByte_coreInv (b : Byte) (hi : CoreInv s) (hp : s.phase = .emit) : CoreInv (acceptByte b s) := by
  obtain ⟨hframe, hphase⟩ := hi
  obtain ⟨hacc, hle, hfull, hpos, hcode, herr⟩ := (phaseInv_emit hp).1 hphase
  refine ⟨hframe, ?_⟩
  by_cases hlast : s.outPos + 1 = s.outLen
  · exact (phaseInv_done (by rw [acceptByte_phase, if_pos hlast])).2 ⟨hacc, hfull, hlast, hcode, herr⟩
  · refine (phaseInv_emit (by rw [acceptByte_phase, if_neg hlast, hp])).2 ⟨hacc, hle, hfull, ?_, hcode, herr⟩
    show (s.outPos + 1).toNat < s.outLen.toNat
    bv_omega

theorem fault_coreInv {u : State} {code : ErrCode} {pos : Word} (hc : FaultCause u code pos) (hi : CoreInv u) :
    CoreInv (raiseFault code pos (popHost u)) := by
  obtain ⟨hframe, hphase⟩ := hi
  refine ⟨hframe, hc.code_ne_none, ?_⟩
  show u.outPos.toNat ≤ u.outLen.toNat
  rcases hc.busy_phase with hp | hp | hp
  · obtain ⟨⟨_, _, _, _, _, hpos, _⟩, _⟩ := (phaseInv_header hp).1 hphase
    simp [hpos]
  · obtain ⟨_, _, hpos, _⟩ := (phaseInv_decode hp).1 hphase
    simp [hpos]
  · obtain ⟨_, _, _, hlt, _⟩ := (phaseInv_emit hp).1 hphase
    omega

theorem startRun_coreInv (s : State) : CoreInv (startRun s) := by
  have h : runCleared (startRun s) := ⟨rfl, rfl, rfl, rfl, rfl, rfl, rfl⟩
  exact ⟨frameInv_of_runCleared h, (phaseInv_header rfl).2 ⟨h, rfl, rfl⟩⟩

theorem resetBlock_coreInv (s : State) : CoreInv (resetBlock s) := by
  have h : runCleared (resetBlock s) := ⟨rfl, rfl, rfl, rfl, rfl, rfl, rfl⟩
  exact ⟨frameInv_of_runCleared h, h, rfl, rfl⟩

/-- In a quiescent phase the invariant says nothing of IN_LEN (log 11). -/
theorem setLength_coreInv (v : Word) (hi : CoreInv s) (hq : busy s.phase = false) : CoreInv { s with inLen := v } := by
  obtain ⟨hframe, hphase⟩ := hi
  refine ⟨hframe, ?_⟩
  unfold PhaseInv at *
  cases hp : s.phase with
  | idle | done | fault => rw [hp] at hphase; exact hphase
  | header | decode | emit => rw [hp] at hq; cases hq

end

/-- Settles O54: each event of a step keeps the invariant. -/
theorem everyStepKeepsTheInvariant : Obligations.EveryStepKeepsTheInvariant := by
  intro s t hi h
  have hpop : CoreInv (popHost s) := hi
  cases step_event h with
  | nothing => exact hi
  | headerAccepted _ phase length dimensions => exact acceptHeader_coreInv hpop phase length dimensions
  | opcode i _ _ phase unread completed => exact completed.coreInv hpop phase unread
  | frameEnd _ phase _ full => exact frameEnd_coreInv hpop phase full
  | accepted _ phase _ => exact acceptByte_coreInv _ hpop phase
  | fault code pos cause => exact fault_coreInv cause hi
  | start => exact startRun_coreInv _
  | setMode | read | load => exact hi
  | setLength v quiescent => exact setLength_coreInv v hpop quiescent
  | reset => exact resetBlock_coreInv _

end Sys2Proof.Machine

namespace Sys2Proof.Machine

/-! ## Opcodes: what they leave unchanged, and what they depend on (R34) -/

/-- Settles O21. -/
theorem opcodeFrame : Obligations.OpcodeFrame := by
  intro i s t hr h
  rcases exec_completed h with ⟨code, _, rfl⟩ | hc
  · exact .inl ⟨code, rfl⟩
  · exact .inr ⟨hc.frame, hc.rp_eq, hc.pixCount_toNat hr, fun _ hj => hc.get_outside hr hj⟩

/-- The registers an opcode reads, the build's capacity, and the registers a fault writes, are the same in both states. -/
structure SameRegisters (s s' : State) : Prop where
  w : s'.w = s.w
  h : s'.h = s.h
  cursor : s'.cursor = s.cursor
  pixCount : s'.pixCount = s.pixCount
  inLen : s'.inLen = s.inLen
  rp : s'.rp = s.rp
  unpackMode : s'.unpackMode = s.unpackMode
  fbCapacity : s'.fbCapacity = s.fbCapacity
  phase : s'.phase = s.phase
  errCode : s'.errCode = s.errCode
  errPos : s'.errPos = s.errPos

/-- `t` and `t'` hold the same in the registers an opcode writes, and the same pixels from entry `first` on. -/
structure SameEffect (first : Nat) (t t' : State) : Prop where
  phase : t'.phase = t.phase
  errCode : t'.errCode = t.errCode
  errPos : t'.errPos = t.errPos
  rp : t'.rp = t.rp
  cursor : t'.cursor = t.cursor
  pixCount : t'.pixCount = t.pixCount
  pixels : ∀ k, first ≤ k → k < t.pixCount.toNat → fbRead t' k = fbRead t k

/-- The pixel read back at an entry of the run is the run's (R142). -/
theorem getElem?_eq_fbRead_fbAppendAll {pixels : List Pixel} {s : State}
    (h : s.pixCount.toNat + pixels.length < 2 ^ 32) {k : Nat} (hlo : s.pixCount.toNat ≤ k)
    (hhi : k < s.pixCount.toNat + pixels.length) :
    pixels[k - s.pixCount.toNat]? = some (fbRead (fbAppendAll pixels s) k) := by
  have hk : k - s.pixCount.toNat < pixels.length := by omega
  rw [fbRead, fbAppendAll_pixCount_toNat _ _ h, if_pos hhi, fbAppendAll_get _ _ h, if_pos ⟨hlo, hhi⟩,
    List.getElem?_eq_getElem hk, Option.getD_some]

section
variable {s s' : State} (hs : SameRegisters s s')
include hs

theorem SameRegisters.raiseFault (code : ErrCode) :
    SameEffect s.pixCount.toNat (raiseFault code s.rp s) (raiseFault code s'.rp s') :=
  ⟨rfl, rfl, hs.rp, hs.rp, hs.cursor, hs.pixCount, fun _ hlo hhi => absurd hhi (Nat.not_lt.2 hlo)⟩

theorem SameRegisters.fbAppendAll {pixels : List Pixel} (h : s.pixCount.toNat + pixels.length < 2 ^ 32) :
    SameEffect s.pixCount.toNat (fbAppendAll pixels s) (fbAppendAll pixels s') := by
  have herr : ∀ u : State, (Machine.fbAppendAll pixels u).errCode = u.errCode ∧
      (Machine.fbAppendAll pixels u).errPos = u.errPos := fun u => by rw [fbAppendAll_eq]; exact ⟨rfl, rfl⟩
  refine ⟨by simp [hs.phase], ?_, ?_, by simp [hs.rp], by simp [hs.cursor], by simp [hs.pixCount], fun k hlo hhi => ?_⟩
  · rw [(herr s').1, (herr s).1, hs.errCode]
  · rw [(herr s').2, (herr s).2, hs.errPos]
  · rw [fbAppendAll_pixCount_toNat _ _ h] at hhi
    have run := getElem?_eq_fbRead_fbAppendAll h hlo hhi
    rw [← hs.pixCount] at h hlo hhi run
    exact Option.some.inj ((getElem?_eq_fbRead_fbAppendAll h hlo hhi).symm.trans run)

theorem SameRegisters.frameRoom (n : Nat) : frameRoom n s' = frameRoom n s := by
  simp only [Machine.frameRoom, hs.pixCount, hs.w, hs.h]

theorem SameRegisters.storeRoom (n : Nat) : storeRoom n s' = storeRoom n s := by
  simp only [Machine.storeRoom, hs.pixCount, hs.fbCapacity]

theorem SameRegisters.opcodeInInput (len : Nat) : opcodeInInput len s' = opcodeInInput len s := by
  simp only [Machine.opcodeInInput, hs.rp, hs.inLen]

theorem SameRegisters.appendSeq (hr : frameRegs s) {pixels : List Pixel} {len : Nat} {t : State}
    (h : appendSeq pixels len s = .next t) :
    ∃ t', appendSeq pixels len s' = .next t' ∧ SameEffect s.pixCount.toNat t t' := by
  have hrow : rowRoom pixels.length s' = rowRoom pixels.length s := by simp only [rowRoom, hs.cursor, hs.w]
  have harea := frameRegs_area_lt hr
  unfold Machine.appendSeq at h ⊢
  rw [hrow, hs.frameRoom, hs.storeRoom]
  split_ifs at h ⊢ with h1 h2 h3 <;> cases h
  · exact ⟨_, rfl, hs.raiseFault _⟩
  · exact ⟨_, rfl, hs.raiseFault _⟩
  · have hfit : s.pixCount.toNat + pixels.length ≤ s.w.toNat * s.h.toNat := by simpa [Machine.frameRoom] using h2
    have happ := hs.fbAppendAll (pixels := pixels) (by omega)
    refine ⟨_, rfl, happ.phase, happ.errCode, happ.errPos, ?_, ?_, happ.pixCount, happ.pixels⟩
    · rw [advanceRp_rp, advanceRp_rp, moveCursor_rp, moveCursor_rp, happ.rp]
    · rw [advanceRp_cursor, advanceRp_cursor, moveCursor_cursor, moveCursor_cursor, happ.cursor]

theorem SameRegisters.padRow (hr : frameRegs s) {len : Nat} {t : State} (h : padRow len s = .next t) :
    ∃ t', padRow len s' = .next t' ∧ SameEffect s.pixCount.toNat t t' := by
  have hpad : padCount s' = padCount s := by simp only [padCount, hs.cursor, hs.w]
  have harea := frameRegs_area_lt hr
  unfold Machine.padRow at h ⊢
  rw [hpad, hs.frameRoom, hs.storeRoom]
  split_ifs at h ⊢ with h1 h2 <;> cases h
  · exact ⟨_, rfl, hs.raiseFault _⟩
  · have hfit : s.pixCount.toNat + padCount s ≤ s.w.toNat * s.h.toNat := by simpa [Machine.frameRoom] using h1
    have happ := hs.fbAppendAll (pixels := List.replicate (padCount s) Pixel.black) (by rw [List.length_replicate]; omega)
    refine ⟨_, rfl, happ.phase, happ.errCode, happ.errPos, ?_, rfl, happ.pixCount, happ.pixels⟩
    rw [advanceRp_rp, advanceRp_rp, homeCursor_rp, homeCursor_rp, happ.rp]

/-- The same registers give an opcode the same effect. -/
theorem SameRegisters.exec (hr : frameRegs s) {i : Instr} {t : State} (h : exec i s = .next t) :
    ∃ t', exec i s' = .next t' ∧ SameEffect s.pixCount.toNat t t' := by
  cases i with
  | lit cnt colors =>
    simp only [Machine.exec, execLit, hs.opcodeInInput, hs.unpackMode] at h ⊢
    split_ifs at h ⊢
    · cases h
      exact ⟨_, rfl, hs.raiseFault _⟩
    · exact hs.appendSeq hr h
  | black cnt => exact hs.appendSeq hr h
  | rep cnt color =>
    simp only [Machine.exec, execRep, hs.opcodeInInput, hs.unpackMode] at h ⊢
    split_ifs at h ⊢
    · cases h
      exact ⟨_, rfl, hs.raiseFault _⟩
    · exact hs.appendSeq hr h
  | nl cnt => exact hs.padRow hr h
  | illegal011 | illegal101 | illegal110 | illegal111 =>
    cases h
    exact ⟨_, rfl, hs.raiseFault _⟩

end

/-- Settles O22. -/
theorem opcodeDependsOnlyOnItsRegisters : Obligations.OpcodeDependsOnlyOnItsRegisters := by
  intro i s s' t hr hw hh hcursor hpix hlen hrp hmode hcap hphase hcode hpos h
  have hs : SameRegisters s s' := ⟨hw, hh, hcursor, hpix, hlen, hrp, hmode, hcap, hphase, hcode, hpos⟩
  obtain ⟨t', ht', same⟩ := hs.exec hr h
  exact ⟨t', ht', same.phase, same.errCode, same.errPos, same.rp, same.cursor, same.pixCount, same.pixels⟩

end Sys2Proof.Machine

namespace Sys2Proof.Machine

/-! ## What changes the phase (R23) -/

/-- An accepted byte changes the phase only to DONE (R214). -/
theorem acceptByte_phase_of_change {b : Byte} {s : State} (h : s.phase ≠ (acceptByte b s).phase) :
    (acceptByte b s).phase = .done := by
  by_cases hlast : s.outPos + 1 = s.outLen
  · exact if_pos hlast
  · exact absurd (if_neg hlast).symm h

/-- A completed opcode or a read leaves the phase; every other event that moves it is a row of R23's table. -/
theorem StepEvent.legalTransition {s t : State} (h : StepEvent s t) (hne : s.phase ≠ t.phase) :
    legalTransition s.phase t.phase := by
  unfold Machine.legalTransition
  cases h with
  | nothing | setMode | setLength | read | load => exact absurd rfl hne
  | headerAccepted _ phase => simp [phase]
  | opcode _ _ _ _ _ completed => exact absurd completed.phase_eq.symm hne
  | frameEnd _ phase => simp [phase]
  | accepted _ phase =>
    rw [acceptByte_phase_of_change (s := popHost s) hne, phase]
    simp
  | fault _ _ cause => rcases cause.busy_phase with phase | phase | phase <;> simp [phase]
  | start _ _ _ quiescent => simp [quiescent]
  | reset => simp

/-- A state in a phase, with the host's next move, every other register as after reset. -/
def stateIn (p : Phase) (host : List HostMove) : State := { State.reset with phase := p, host := host }

/-- Every row of R23's table is taken by some step. -/
theorem legalTransition_taken {p q : Phase} (h : legalTransition p q) :
    ∃ s t, step s = .next t ∧ s.phase = p ∧ t.phase = q := by
  rcases h with ⟨hq, rfl⟩ | ⟨rfl, rfl⟩ | ⟨rfl, rfl⟩ | ⟨rfl, rfl⟩ | ⟨rfl, rfl⟩ | ⟨rfl, rfl⟩ | ⟨rfl, rfl⟩ | rfl
  · cases p with
    | idle | done | fault => exact ⟨stateIn _ [.write 0 1], _, rfl, rfl, rfl⟩
    | header | decode | emit => cases hq
  · -- the header of a 1x1 frame
    exact ⟨{ stateIn .header [] with input := [(0, 1), (4, 1)], inLen := 8, fbCapacity := 1 }, _, rfl, rfl, rfl⟩
  · exact ⟨stateIn .header [], _, rfl, rfl, rfl⟩
  · exact ⟨{ stateIn .decode [] with w := 1, h := 1 }, _, rfl, rfl, rfl⟩
  · exact ⟨stateIn .decode [], _, rfl, rfl, rfl⟩
  · exact ⟨{ stateIn .emit [.answer .accept] with outLen := 1 }, _, rfl, rfl, rfl⟩
  · exact ⟨{ stateIn .emit [.answer .refuse] with outLen := 1 }, _, rfl, rfl, rfl⟩
  · exact ⟨stateIn p [.reset], _, rfl, rfl, rfl⟩

/-- Settles O36. -/
theorem phaseTransitions : Obligations.PhaseTransitions := by
  intro p q hpq
  constructor
  · rintro ⟨s, t, h, rfl, rfl⟩
    exact (step_event h).legalTransition hpq
  · exact legalTransition_taken

/-- Settles O37: read off the event that changed the phase. -/
theorem phaseChangeCauses : Obligations.PhaseChangeCauses := by
  intro s t h hne
  cases step_event h with
  | nothing | setMode | setLength | read | load => exact absurd rfl hne
  | headerAccepted turn => exact turn
  | opcode _ _ _ _ _ completed => exact absurd completed.phase_eq.symm hne
  | frameEnd turn => exact turn
  | accepted move =>
    rw [acceptByte_phase_of_change (s := popHost s) hne]
    exact move
  | fault _ _ cause => exact cause.agent
  | start v move bit => exact ⟨v, move, bit⟩
  | reset move => exact move

/-! ## What a run keeps (R24, R25, R28, R38) -/

/-- Settles O47: the events that write UNPACK_MODE, IN_LEN or the input are those of a quiescent phase, and reset. -/
theorem runKeepsItsConfiguration : Obligations.RunKeepsItsConfiguration := by
  intro s t h hb
  cases step_event h with
  | nothing | headerAccepted | frameEnd | accepted | fault | read => exact ⟨rfl, .inr ⟨rfl, rfl⟩⟩
  | opcode _ _ _ _ _ completed =>
    exact ⟨completed.input_eq, .inr ⟨completed.unpackMode_eq, completed.inLen_eq⟩⟩
  | start _ _ _ quiescent | setMode _ quiescent | setLength _ quiescent | load _ _ quiescent =>
    rw [quiescent] at hb
    cases hb
  | reset move => exact ⟨rfl, .inl move⟩

/-- Settles O48. -/
theorem dimensionsFixedForARun : Obligations.DimensionsFixedForARun := by
  intro s t h hne
  have same {u : State} (hw : u.w = s.w) (hh : u.h = s.h) : ¬ (u.w ≠ s.w ∨ u.h ≠ s.h) := by simp [hw, hh]
  cases step_event h with
  | nothing | frameEnd | accepted | fault | setMode | setLength | read | load => exact absurd hne (same rfl rfl)
  | opcode _ _ _ _ _ completed => exact absurd hne (same completed.w_eq completed.h_eq)
  | headerAccepted _ phase => exact .inl ⟨phase, rfl⟩
  | start _ _ _ quiescent => exact .inr (.inl ⟨quiescent, rfl⟩)
  | reset move => exact .inr (.inr move)

/-- Settles O49. -/
theorem storeIsAppendOnly : Obligations.StoreIsAppendOnly := by
  intro s t hr h hreset
  cases step_event h with
  | nothing | headerAccepted | frameEnd | accepted | fault | start | setMode | setLength | read | load => exact .inl rfl
  | opcode _ _ _ phase _ completed =>
    exact .inr ⟨phase, completed.phase_eq.trans phase, fun _ hi => completed.get_outside hr (.inl hi)⟩
  | reset move => exact absurd move hreset

/-- In a busy phase RP is at most IN_LEN (R33 item 2). -/
theorem CoreInv.rp_le_inLen {s : State} (hi : CoreInv s) (hb : busy s.phase = true) : s.rp.toNat ≤ s.inLen.toNat := by
  cases hp : s.phase with
  | header =>
    obtain ⟨⟨_, _, hrp, _⟩, _⟩ := (phaseInv_header hp).1 hi.2
    simp [hrp]
  | decode => exact ((phaseInv_decode hp).1 hi.2).2.1
  | emit => exact ((phaseInv_emit hp).1 hi.2).2.1
  | idle | done | fault => rw [hp] at hb; cases hb

/-- Settles O50: that RP stays in the input is the invariant of the next state (O54). -/
theorem readCursorOnlyAdvances : Obligations.ReadCursorOnlyAdvances := by
  intro s t hi h hb hbt
  refine ⟨?_, (everyStepKeepsTheInvariant s t hi h).rp_le_inLen hbt⟩
  cases step_event h with
  | nothing | frameEnd | accepted | fault | setMode | setLength | read | load => exact le_rfl
  | headerAccepted _ phase =>
    obtain ⟨⟨_, _, hrp, _⟩, _⟩ := (phaseInv_header phase).1 hi.2
    simp [hrp]
  | opcode i _ _ _ unread completed =>
    have hrp := (completed.rp_toNat unread).1
    rw [popHost_rp] at hrp
    omega
  | start _ _ _ quiescent => rw [quiescent] at hb; cases hb
  | reset => cases hbt

/-! ## Stops (R28, R231, logs 7 to 10) -/

/-- The pixel an output byte comes from is one of the frame's (R213). -/
theorem byteSource_pixel_lt {w h i index channel : Nat} (hi : i < outputLength w h)
    (hs : byteSource w h i = .pixel index channel) : index < w * h := by
  simp only [byteSource] at hs
  split_ifs at hs with hhead
  cases hs
  have hk : (i - 54) / stride w < h := by
    refine Nat.div_lt_of_lt_mul ?_
    rw [outputLength, bodyLength, Nat.mul_comm] at hi
    omega
  have hcol : (i - 54) % stride w / 3 < w := by omega
  calc (h - 1 - (i - 54) / stride w) * w + (i - 54) % stride w / 3
      < (h - 1 - (i - 54) / stride w) * w + w := by omega
    _ = (h - (i - 54) / stride w) * w := by rw [← Nat.succ_mul]; congr 1; omega
    _ ≤ w * h := by rw [Nat.mul_comm]; exact Nat.mul_le_mul_left w (Nat.sub_le h _)

theorem sourceExists_of_lt {w h i capacity : Nat} (hi : i < outputLength w h) (hcap : w * h ≤ capacity) :
    sourceExists w h i capacity = true := by
  unfold sourceExists
  split
  · rfl
  · next hs => exact decide_eq_true ((byteSource_pixel_lt hi hs).trans_le hcap)
  · rfl

section
variable {s : State}

theorem appendSeq_answers (hcap : s.w.toNat * s.h.toNat ≤ s.fbCapacity) (pixels : List Pixel) (len : Nat) :
    ∃ t, appendSeq pixels len s = .next t := by
  rcases appendSeq_cases pixels len s with ⟨_, he⟩ | ⟨_, _, he⟩ | ⟨_, _, _, _⟩ | ⟨_, _, _, he⟩
  · exact ⟨_, he⟩
  · exact ⟨_, he⟩
  · omega
  · exact ⟨_, he⟩

theorem padRow_answers (hcap : s.w.toNat * s.h.toNat ≤ s.fbCapacity) (len : Nat) : ∃ t, padRow len s = .next t := by
  rcases padRow_cases len s with ⟨_, he⟩ | ⟨_, _, _⟩ | ⟨_, _, he⟩
  · exact ⟨_, he⟩
  · omega
  · exact ⟨_, he⟩

/-- Where the frame fits the store every opcode answers a next state (R28, R141). -/
theorem exec_answers (hcap : s.w.toNat * s.h.toNat ≤ s.fbCapacity) (i : Instr) : ∃ t, exec i s = .next t := by
  cases i with
  | lit cnt colors =>
    rcases execLit_cases cnt colors s with ⟨_, he⟩ | ⟨_, he⟩
    · exact ⟨_, he⟩
    · obtain ⟨t, ht⟩ := appendSeq_answers hcap (colors.map (unpack s.unpackMode)) (1 + 2 * runCount cnt)
      exact ⟨t, he.trans ht⟩
  | black cnt => exact appendSeq_answers hcap _ _
  | rep cnt color =>
    rcases execRep_cases cnt color s with ⟨_, he⟩ | ⟨_, he⟩
    · exact ⟨_, he⟩
    · obtain ⟨t, ht⟩ := appendSeq_answers hcap (List.replicate (runCount cnt) (unpack s.unpackMode color)) 3
      exact ⟨t, he.trans ht⟩
  | nl => exact padRow_answers hcap 1
  | illegal011 | illegal101 | illegal110 | illegal111 => exact ⟨_, rfl⟩

theorem decodeStep_answers (hcap : s.w.toNat * s.h.toNat ≤ s.fbCapacity) : ∃ t, decodeStep s = .next t := by
  rcases decodeStep_cases s with ⟨_, he⟩ | ⟨_, i, _, _, he⟩ | ⟨_, _, he⟩
  · rw [he]
    rcases terminalCheck_cases s with ⟨_, hc⟩ | ⟨_, hc⟩ <;> exact ⟨_, hc⟩
  · rw [he]
    exact exec_answers hcap i
  · exact ⟨_, he⟩

/-- Under the invariant the block's turn answers a next state. -/
theorem blockStep_answers (hi : CoreInv s) : ∃ t, blockStep s = .next t := by
  cases hp : s.phase with
  | header =>
    have hb : blockStep s = headerStep s := by simp [blockStep, hp]
    rw [hb]
    rcases headerStep_cases s with ⟨_, he⟩ | ⟨_, _, he⟩ | ⟨_, _, he⟩ <;> exact ⟨_, he⟩
  | decode =>
    have hb : blockStep s = decodeStep s := by simp [blockStep, hp]
    obtain ⟨_, _, _, hcap, _⟩ := hi.1
    rw [hb]
    exact decodeStep_answers hcap
  | emit => exact ⟨s, blockStep_idle (.inr hp)⟩
  | idle | done | fault => exact ⟨s, blockStep_idle (.inl (by rw [hp]; rfl))⟩

/-- Under the invariant the sink's answer has a next state: in EMIT the offered byte exists, and so does its pixel. -/
theorem sinkAnswers_answers (a : SinkAnswer) (hi : CoreInv s) : ∃ t, sinkAnswers a s = .next t := by
  by_cases hp : s.phase = .emit
  · obtain ⟨⟨_, _, _, hcap, _⟩, hphase⟩ := hi
    obtain ⟨_, _, ⟨_, hlen⟩, hlt, _⟩ := (phaseInv_emit hp).1 hphase
    have hsource := sourceExists_of_lt (hlen ▸ hlt) hcap
    rw [sinkAnswers_emit a hp]
    rcases emitStep_cases a s with ⟨_, _⟩ | ⟨_, hnone, _⟩ | ⟨_, _, ⟨_, he⟩ | ⟨_, he⟩⟩
    · omega
    · rw [hsource] at hnone
      cases hnone
    · exact ⟨_, he⟩
    · exact ⟨_, he⟩
  · exact ⟨s, sinkAnswers_other a hp⟩

/-- Under the invariant a step answers a next state, or it is a host load. -/
theorem step_answers_or_loads (hi : CoreInv s) :
    (∃ t, step s = .next t) ∨
    ∃ offset b, s.host.head? = some (.load offset b) ∧ step s = loadInput offset b (popHost s) := by
  have hpop : CoreInv (popHost s) := hi
  rcases step_cases s with ⟨_, he⟩ | ⟨_, _, _, he⟩ | ⟨_, _, he⟩ | hload | ⟨a, _, he⟩ | ⟨_, he⟩
  · rw [he]
    exact .inl (blockStep_answers hpop)
  · exact .inl ⟨_, he⟩
  · exact .inl ⟨_, he⟩
  · exact .inr hload
  · rw [he]
    exact .inl (sinkAnswers_answers a hpop)
  · exact .inl ⟨_, he⟩

end

/-- Settles O52: only a host load can stop, in one of its two ways. -/
theorem onlyHostLoadsStop : Obligations.OnlyHostLoadsStop := by
  intro s hi
  rcases step_answers_or_loads hi with ⟨t, he⟩ | ⟨offset, b, hm, he⟩
  · simp [he]
  · rw [he]
    rcases loadInput_cases offset b (popHost s) with ⟨hb, hl⟩ | ⟨_, hoff, hl⟩ | ⟨_, _, hl⟩ <;> rw [hl]
    · refine ⟨nofun, fun r hr => ?_⟩
      cases hr
      exact ⟨rfl, hb, offset, b, hm⟩
    · refine ⟨fun r hr => ?_, nofun⟩
      cases hr
      have hlast : offset = 0xFFFFFFFF := by
        have := offset.isLt
        unfold Config.inputSpace at hoff
        apply BitVec.eq_of_toNat_eq
        simp
        omega
      exact ⟨rfl, b, hlast ▸ hm⟩
    · exact ⟨nofun, nofun⟩

/-- A run that passes the row and frame checks, but has no entries in the store, stops (log 9). -/
theorem appendSeq_past_store {s : State} (pixels : List Pixel) (len : Nat)
    (hrow : s.cursor.toNat + pixels.length ≤ s.w.toNat)
    (hframe : s.pixCount.toNat + pixels.length ≤ s.w.toNat * s.h.toNat)
    (hstore : s.fbCapacity < s.pixCount.toNat + pixels.length) : appendSeq pixels len s = .fault .noPixelEntry := by
  rcases appendSeq_cases pixels len s with ⟨_, _⟩ | ⟨_, _, _⟩ | ⟨_, _, _, he⟩ | ⟨_, _, _, _⟩
  · omega
  · omega
  · exact he
  · omega

/-- A newline that passes the frame check, but whose padding has no entries in the store, stops (log 9). -/
theorem padRow_past_store {s : State} (len : Nat) (hframe : s.pixCount.toNat + padCount s ≤ s.w.toNat * s.h.toNat)
    (hstore : s.fbCapacity < s.pixCount.toNat + padCount s) : padRow len s = .fault .noPixelEntry := by
  rcases padRow_cases len s with ⟨_, _⟩ | ⟨_, _, he⟩ | ⟨_, _, _⟩
  · omega
  · exact he
  · omega

/-- Settles O51: a run that passes its other checks finds no entry in the store. -/
theorem appendPastTheStoreStops : Obligations.AppendPastTheStoreStops := by
  intro s cnt colors color
  refine ⟨fun hrow hframe hstore => ⟨?_, fun hin => ?_, fun hwf hin => ?_⟩, fun hframe hstore => ?_⟩
  · exact appendSeq_past_store _ _ (by simpa [runCount]) (by simpa [runCount]) (by simpa [runCount])
  · rcases execRep_cases cnt color s with ⟨_, _⟩ | ⟨_, he⟩
    · omega
    · exact he.trans (appendSeq_past_store _ _ (by simpa [runCount]) (by simpa [runCount]) (by simpa [runCount]))
  · have hlen : colors.length = cnt.toNat + 1 := by simpa [Instr.wf] using hwf
    rcases execLit_cases cnt colors s with ⟨hout, _⟩ | ⟨_, he⟩
    · rw [runCount] at hout
      omega
    · exact he.trans (appendSeq_past_store _ _ (by simpa [hlen]) (by simpa [hlen]) (by simpa [hlen]))
  · exact padRow_past_store 1 hframe hstore

end Sys2Proof.Machine

namespace Sys2Proof.Machine

/-! ## The register map (R37, R38, R39) -/

/-- A step whose first move is `m` is what the move does (log 5). -/
theorem step_of_move {s : State} {m : HostMove} {rest : List HostMove} (h : s.host = m :: rest) :
    step s = hostStep m (popHost s) := by
  simp [step, advance, popHost, h]

theorem step_of_write {s : State} {reg : Nat} {v : Word} {rest : List HostMove} (h : s.host = .write reg v :: rest) :
    step s = .next (writeReg reg v (popHost s)) := step_of_move h

theorem getLsbD_zero_iff (v : Word) : v.getLsbD 0 = true ↔ v.toNat % 2 = 1 := by
  rw [BitVec.getLsbD, Nat.testBit_zero, decide_eq_true_eq]

/-- A write to CONFIG in a quiescent phase sets UNPACK_MODE from bit 0 (R37, R38). -/
theorem writeReg_config (v : Word) {s : State} (hq : busy s.phase = false) :
    writeReg 1 v s = { s with unpackMode := if v.toNat % 2 = 1 then .rgb555 else .compat } := by
  simp only [writeReg, hq, unpackModeOfBit, getLsbD_zero_iff]
  rfl

/-- A write to IN_LEN in a quiescent phase sets it (R37, R38). -/
theorem writeReg_inLen (v : Word) {s : State} (hq : busy s.phase = false) : writeReg 2 v s = { s with inLen := v } := by
  simp only [writeReg, hq]
  rfl

/-- In a busy phase every register write is ignored (R38, R160). -/
theorem writeReg_of_busy (reg : Nat) (v : Word) {s : State} (hb : busy s.phase = true) : writeReg reg v s = s := by
  rcases writeReg_cases reg v s with he | ⟨_, _, hq, _⟩ | ⟨_, hq, _⟩ | ⟨_, hq, _⟩
  · exact he
  all_goals rw [hq] at hb; cases hb

/-- A write to a read-only or absent register, or of 0 to CTRL.START, is ignored (R37). -/
theorem writeReg_ignored {reg : Nat} {v : Word} (s : State) (h : 3 ≤ reg ∨ reg = 0 ∧ v.toNat % 2 = 0) :
    writeReg reg v s = s := by
  rcases writeReg_cases reg v s with he | ⟨_, hbit, _⟩ | ⟨_, _⟩ | ⟨_, _⟩
  · exact he
  · rw [getLsbD_zero_iff] at hbit
    omega
  · omega
  · omega

/-- CTRL and the numbers above 0x0C read 0 (R37). -/
theorem readReg_absent (s : State) {reg : Nat} (h : reg = 0 ∨ 0x0C < reg) : readReg s reg = 0 := by
  rcases h with rfl | h
  · rfl
  · obtain ⟨k, rfl⟩ := Nat.exists_eq_add_of_le' h
    rfl

/-- UNPACK_MODE reads as its bit (R29, R37). -/
theorem readReg_config (s : State) : readReg s 1 = if s.unpackMode = .compat then 0 else 1 := by
  rw [readReg]
  cases s.unpackMode <;> rfl

/-- Settles O41. -/
theorem resetStateHoldsResetValues : Obligations.ResetStateHoldsResetValues :=
  ⟨rfl, rfl, rfl, rfl, rfl, rfl, rfl, rfl, rfl, rfl, rfl, rfl, rfl, Nat.le_add_left 1 Config.fbCapacityLessOne⟩

/-- Settles O42. -/
theorem configurationWrites : Obligations.ConfigurationWrites := by
  intro s v rest
  refine ⟨fun h => ⟨fun hq => ?_, fun hb => ?_⟩, fun h => ⟨fun hq => ?_, fun hb => ?_⟩, fun h hb => ?_⟩ <;>
    rw [step_of_write h]
  · rw [writeReg_config v (s := popHost s) hq]
  · rw [writeReg_of_busy _ v (s := popHost s) hb]
  · rw [writeReg_inLen v (s := popHost s) hq]
  · rw [writeReg_of_busy _ v (s := popHost s) hb]
  · rw [writeReg_of_busy _ v (s := popHost s) hb]

/-- Settles O43. -/
theorem otherRegisterWritesIgnored : Obligations.OtherRegisterWritesIgnored := by
  intro s reg v rest h hreg
  rw [step_of_write h, writeReg_ignored _ hreg]

/-- Settles O44: the value read is `readReg`'s, register by register. -/
theorem registerReads : Obligations.RegisterReads := by
  intro s reg rest h
  refine ⟨readReg (popHost s) reg, step_of_move h, fun hreg => readReg_absent _ hreg, ?_, ?_, ?_, ?_, ?_, ?_, ?_, ?_, ?_,
    ?_, ?_, ?_⟩ <;> rintro rfl
  case refine_1 => exact readReg_config _
  case refine_3 =>
    show statusWord s.phase = _
    cases s.phase <;> rfl
  case refine_4 =>
    show (errCodeNumber s.errCode).setWidth 32 = _
    cases s.errCode <;> rfl
  all_goals rfl

/-- Settles O53: the reset state is cleared (R40). -/
theorem invariantHoldsAtReset : Obligations.InvariantHoldsAtReset := by
  have cleared : runCleared State.reset := ⟨rfl, rfl, rfl, rfl, rfl, rfl, rfl⟩
  exact ⟨⟨frameInv_of_runCleared cleared, cleared, rfl, rfl⟩, ⟨rfl, rfl⟩, List.nil_suffix⟩

/-- Settles O57. -/
theorem doneLetsInLenFallBelowRp : Obligations.DoneLetsInLenFallBelowRp := by
  intro s v rest hp h hv
  have hq : busy (popHost s).phase = false := by rw [popHost_phase, hp]; rfl
  exact ⟨{ popHost s with inLen := v }, by rw [step_of_write h, writeReg_inLen v hq], hp, hv⟩

end Sys2Proof.Machine

namespace Sys2Proof.Machine

/-! # The memories and the sink (spec/20_memory.md)

Loading the input (R60, R262), the canonical form of both memories, and the bytes the sink has accepted (R70, R214). -/

/-! ## Loading the input -/

/-- Settles O45: a load in a quiescent phase is a memory write at its offset. -/
theorem loadPlacesOneByte : Obligations.LoadPlacesOneByte := by
  intro s offset b rest h hq hoff
  rcases loadInput_cases offset b (popHost s) with ⟨hb, _⟩ | ⟨_, hspace, _⟩ | ⟨_, _, he⟩
  · rw [popHost_phase, hq] at hb
    cases hb
  · unfold Config.inputSpace at hspace
    omega
  · exact ⟨_, (step_of_move h).trans he, rfl, Memory.read_write_same _ _ _, fun _ ha => Memory.read_write_other _ b ha⟩

/-- A step leaves the input as it was, or it is a load of one byte at an offset that exists (R60, R76, R262). -/
theorem step_input {s t : State} (h : step s = .next t) :
    t.input = s.input ∨
    ∃ (offset : Word) (b : Byte), offset.toNat < Config.inputSpace ∧ t.input = Memory.write s.input offset.toNat b := by
  cases hq : busy s.phase with
  | true => exact .inl (runKeepsItsConfiguration s t h hq).1
  | false =>
    rcases step_cases s with ⟨_, he⟩ | ⟨reg, v, _, he⟩ | ⟨reg, _, he⟩ | ⟨offset, b, _, he⟩ | ⟨a, _, he⟩ | ⟨_, he⟩ <;>
      rw [he] at h
    · rw [blockStep_idle (s := popHost s) (.inl hq)] at h
      cases h
      exact .inl rfl
    · cases h
      rcases writeReg_cases reg v (popHost s) with hw | ⟨_, _, _, hw⟩ | ⟨_, _, hw⟩ | ⟨_, _, hw⟩ <;>
        exact .inl (by rw [hw]; rfl)
    · cases h
      exact .inl rfl
    · rcases loadInput_cases offset b (popHost s) with ⟨_, hl⟩ | ⟨_, _, hl⟩ | ⟨_, hoff, hl⟩ <;> rw [hl] at h <;> cases h
      exact .inr ⟨offset, b, hoff, rfl⟩
    · have hp : s.phase ≠ .emit := fun hp => by simp [hp, busy] at hq
      rw [sinkAnswers_other a (s := popHost s) hp] at h
      cases h
      exact .inl rfl
    · cases h
      exact .inl rfl

/-! ## The canonical form of the memories (logs 3, 4) -/

theorem Completed.store_wf {i : Instr} {s t : State} (hc : Completed i s t)
    (h : PixelStore.wf s.fbCapacity s.fb = true) : PixelStore.wf t.fbCapacity t.fb = true := by
  have hcap : t.fbCapacity = s.fbCapacity := by rw [hc.frame]
  rw [hcap, hc.fb_eq]
  exact fbAppendAll_wf _ _ (by rw [pixelRun_length]; exact hc.inStore) h

/-- Only a completed opcode and reset write the pixel store, and both keep its canonical form (R28, R260). -/
theorem step_store_wf {s t : State} (hs : PixelStore.wf s.fbCapacity s.fb = true) (h : step s = .next t) :
    PixelStore.wf t.fbCapacity t.fb = true := by
  cases step_event h with
  | nothing | headerAccepted | frameEnd | accepted | fault | start | setMode | setLength | read | load => exact hs
  | opcode _ _ _ _ _ completed => exact completed.store_wf (s := popHost s) hs
  | reset => rfl

/-- Settles O55. -/
theorem everyStepKeepsStorageCanonical : Obligations.EveryStepKeepsStorageCanonical := by
  rintro s t ⟨hinput, hstore⟩ h
  refine ⟨?_, step_store_wf hstore h⟩
  rcases step_input h with he | ⟨offset, b, hoff, he⟩ <;> rw [he]
  · exact hinput
  · exact Memory.write_wf b hoff hinput

/-! ## Output bytes by index (R213) -/

/-- In a row of parts of one length `m`, element `j` is element `j mod m` of part `j / m`. -/
theorem getElem?_flatMap_range {α : Type} {f : Nat → List α} {m n j : Nat} (hf : ∀ k, (f k).length = m)
    (hj : j < n * m) : ((List.range n).flatMap f)[j]? = (f (j / m))[j % m]? := by
  induction n with
  | zero => omega
  | succ n ih =>
    have hlen : ((List.range n).flatMap f).length = n * m := by simp [List.length_flatMap, hf]
    rw [List.range_succ, List.flatMap_append]
    rw [Nat.succ_mul] at hj
    by_cases hlt : j < n * m
    · rw [List.getElem?_append_left (by omega), ih hlt]
    · obtain ⟨r, rfl⟩ := Nat.exists_eq_add_of_le (not_lt.1 hlt)
      have hr : r < m := by omega
      have hdiv : (n * m + r) / m = n := by
        rw [Nat.mul_comm, Nat.mul_add_div (by omega), Nat.div_eq_of_lt hr, Nat.add_zero]
      have hmod : (n * m + r) % m = r := by rw [Nat.mul_comm, Nat.mul_add_mod, Nat.mod_eq_of_lt hr]
      rw [List.getElem?_append_right (by omega), hlen, hdiv, hmod]
      simp

/-- A pixel's output bytes are its channels in order (R211). -/
theorem pixelBytes_getElem? (px : Pixel) {c : Nat} (hc : c < 3) : (pixelBytes px)[c]? = some (pixelChannel px c) := by
  match c with
  | 0 | 1 | 2 => rfl

/-- Byte `o` of an output row: a channel of pixel `o / 3`, or padding (R211, R212). -/
theorem paddedRow_getElem? (w : Nat) (fb : Nat → Pixel) (row : Nat) {o : Nat} (ho : o < stride w) :
    (paddedRow w fb row)[o]? =
      some (if o < 3 * w then pixelChannel (fb (row * w + o / 3)) (o % 3) else 0) := by
  rw [stride_eq] at ho
  unfold paddedRow
  split
  · rw [List.getElem?_append_left (by simpa), rowBytes,
      getElem?_flatMap_range (m := 3) (fun _ => rfl) (by omega), pixelBytes_getElem? _ (by omega)]
  · rw [List.getElem?_append_right (by simp; omega), List.getElem?_replicate, rowBytes_length, if_pos (by omega)]

/-- The direct computation of an output byte gives the byte of the sequence (R213). -/
theorem bmpBytes_getElem? {w h i : Nat} (fb : Nat → Pixel) (hi : i < outputLength w h) :
    (bmpBytes w h fb)[i]? = some (bmpByte w h fb i) := by
  unfold bmpBytes bmpByte byteSource
  by_cases hhead : i < 54
  · rw [List.getElem?_append_left (by simpa), if_pos hhead]
    simp [hhead]
  · rw [outputLength, bodyLength] at hi
    have hrow : (i - 54) % stride w < stride w := by
      refine Nat.mod_lt _ (Nat.pos_of_ne_zero fun h0 => ?_)
      rw [h0] at hi
      omega
    rw [List.getElem?_append_right (by simp; omega), bmpHeader_length,
      getElem?_flatMap_range (paddedRow_length w fb <| h - 1 - ·) (by omega), paddedRow_getElem? _ _ _ hrow, if_neg hhead]
    dsimp only
    split_ifs <;> rfl

/-! ## The sink's bytes (R70, R195, R214) -/

theorem sinkInv_of_outPos_zero {s : State} (h : s.outPos = 0) : SinkInv s := by
  rw [SinkInv, h]
  exact List.nil_suffix

/-- Accepting the offered byte: the sink then ends in one more byte of the output (R213, R214). -/
theorem acceptByte_sinkInv {s : State} (hs : SinkInv s)
    (hpos : s.outPos.toNat < outputLength s.w.toNat s.h.toNat) (hlt : s.outPos.toNat < s.outLen.toNat) :
    SinkInv (acceptByte (offeredByte s) s) := by
  obtain ⟨before, hout⟩ := hs
  have hnext : (s.outPos + 1).toNat = s.outPos.toNat + 1 := by bv_omega
  have hbyte : (outputBytes s)[s.outPos.toNat]? = some (offeredByte s) := bmpBytes_getElem? (fbRead s) hpos
  refine ⟨before, ?_⟩
  show before ++ (outputBytes s).take (s.outPos + 1).toNat = s.out ++ [offeredByte s]
  rw [hnext, List.take_add_one, hbyte, ← List.append_assoc, hout]
  rfl

/-- Settles O56: an accepted byte is the next one of the output. Every other event leaves the output and the sink's bytes
as they were, or stands at OUT_POS 0. -/
theorem everyStepKeepsTheSinksBytes : Obligations.EveryStepKeepsTheSinksBytes := by
  intro s t hi hs h
  cases step_event h with
  | nothing | fault | setMode | setLength | read | load => exact hs
  | headerAccepted _ phase =>
    obtain ⟨⟨_, _, _, _, _, hpos, _⟩, _⟩ := (phaseInv_header phase).1 hi.2
    exact sinkInv_of_outPos_zero hpos
  | opcode _ _ _ phase _ completed =>
    obtain ⟨_, _, hpos, _⟩ := (phaseInv_decode phase).1 hi.2
    have hkept : t.outPos = s.outPos := by rw [completed.frame]; rfl
    exact sinkInv_of_outPos_zero (hkept.trans hpos)
  | accepted _ phase unsent =>
    obtain ⟨_, _, ⟨_, hlen⟩, _⟩ := (phaseInv_emit phase).1 hi.2
    exact acceptByte_sinkInv (s := popHost s) hs (hlen ▸ unsent) unsent
  | frameEnd | start | reset => exact sinkInv_of_outPos_zero rfl

end Sys2Proof.Machine

/-! # The encoding of opcodes (spec/30_encoding.md)

The decoder's answer said once, by what the encoder does (`decodeOpcode_cases`), and from it that decoding and encoding are
inverse to each other (`decode_eq_opcode_iff`). -/

namespace Sys2Proof

/-! ## The control byte of an opcode (R91, R96) -/

/-- `TAG` of the opcode's control byte (R96). -/
def Instr.tag : Instr → BitVec 3
  | .lit _ _ => 0b000
  | .black _ => 0b001
  | .rep _ _ => 0b010
  | .nl _ => 0b100
  | .illegal011 _ => 0b011
  | .illegal101 _ => 0b101
  | .illegal110 _ => 0b110
  | .illegal111 _ => 0b111

/-- `CNT` of the opcode's control byte (R91). -/
def Instr.cnt : Instr → BitVec 5
  | .lit cnt _ | .black cnt | .rep cnt _ | .nl cnt => cnt
  | .illegal011 cnt | .illegal101 cnt | .illegal110 cnt | .illegal111 cnt => cnt

/-- An encoding begins with the control byte of its opcode's two fields (R91). -/
theorem encode_eq_cons (i : Instr) : encode i = ctrlByte i.tag i.cnt :: (encode i).tail := by
  cases i <;> rfl

theorem ctrl_of_encode_append {i : Instr} {ctrl : Byte} {bytes rest : List Byte} (h : encode i ++ rest = ctrl :: bytes) :
    ctrl = ctrlByte i.tag i.cnt := by
  rw [encode_eq_cons] at h
  exact (List.cons.inj h).1.symm

/-- The mask of R96 keeps the tag and clears the count. -/
theorem ctrlByte_and_mask (tag : BitVec 3) (cnt : BitVec 5) : ctrlByte tag cnt &&& 0xE0 = ctrlByte tag 0 := by
  revert tag cnt; decide

/-- Control bytes with the count cleared are told apart by their tags. -/
theorem ctrlByte_zero_inj {tag tag' : BitVec 3} : ctrlByte tag 0 = ctrlByte tag' 0 ↔ tag = tag' := by
  refine ⟨fun h => ?_, congrArg (ctrlByte · 0)⟩
  simpa using congrArg ctrlTag h

/-! ## Lengths (R94) -/

/-- A well-formed opcode encodes to as many bytes as its format says (R94). -/
theorem encode_length {i : Instr} (h : i.wf = true) : (encode i).length = opcodeLength i := by
  cases i with
  | lit cnt colors => exact Laws.EncodeLength.lit cnt colors h
  | black | rep | nl | illegal011 | illegal101 | illegal110 | illegal111 => rfl

/-- The length R94 gives a control byte's opcode, from the byte's value alone (R95). -/
def ctrlLength (ctrl : Byte) : Nat :=
  if ctrl.toNat / 32 = 0 then 1 + 2 * (ctrl.toNat % 32 + 1) else if ctrl.toNat / 32 = 2 then 3 else 1

/-- `ctrlLength` by the two fields of the control byte (R94). -/
theorem ctrlLength_ctrlByte (tag : BitVec 3) (cnt : BitVec 5) :
    ctrlLength (ctrlByte tag cnt) = if tag = 0b000 then 1 + 2 * runCount cnt else if tag = 0b010 then 3 else 1 := by
  revert tag cnt; decide

/-- An opcode has the length its control byte gives (R94). -/
theorem ctrlLength_eq_opcodeLength (i : Instr) : ctrlLength (ctrlByte i.tag i.cnt) = opcodeLength i := by
  rw [ctrlLength_ctrlByte]
  cases i <;> rfl

/-! ## What the decoder answers (R90, R94, R96) -/

/-- All that decoding behind a control byte can answer: a well-formed opcode whose encoding, with the bytes left over, is
what was read; or nothing, for want of the bytes the control byte asks for. -/
theorem decodeOpcode_cases (ctrl : Byte) (bytes : List Byte) :
    (∃ i rest, decodeOpcode ctrl bytes = some (i, rest) ∧ i.wf = true ∧ encode i ++ rest = ctrl :: bytes) ∨
    (decodeOpcode ctrl bytes = none ∧ bytes.length + 1 < ctrlLength ctrl) := by
  obtain ⟨cnt, rfl | rfl | rfl | rfl | rfl | rfl | rfl | rfl⟩ := ctrlByte_tag_cases ctrl
  · rcases takeColors_cases (runCount cnt) bytes with ⟨colors, rest, htake, hlen, rfl⟩ | ⟨htake, hshort⟩
    · exact .inl ⟨.lit cnt colors, rest, by rw [decodeOpcode_lit, htake], by simpa [Instr.wf, runCount] using hlen, rfl⟩
    · refine .inr ⟨by rw [decodeOpcode_lit, htake], ?_⟩
      rw [ctrlLength_ctrlByte, if_pos rfl]
      omega
  · exact .inl ⟨.black cnt, bytes, decodeOpcode_black cnt bytes, rfl, rfl⟩
  · match bytes with
    | lo :: hi :: rest => exact .inl ⟨.rep cnt (le16 lo hi), rest, decodeOpcode_rep cnt _, rfl, by simp [encode]⟩
    | [_] | [] => exact .inr ⟨decodeOpcode_rep cnt _, by simp [ctrlLength_ctrlByte]⟩
  · exact .inl ⟨.illegal011 cnt, bytes, decodeOpcode_illegal011 cnt bytes, rfl, rfl⟩
  · exact .inl ⟨.nl cnt, bytes, decodeOpcode_nl cnt bytes, rfl, rfl⟩
  · exact .inl ⟨.illegal101 cnt, bytes, decodeOpcode_illegal101 cnt bytes, rfl, rfl⟩
  · exact .inl ⟨.illegal110 cnt, bytes, decodeOpcode_illegal110 cnt bytes, rfl, rfl⟩
  · exact .inl ⟨.illegal111 cnt, bytes, decodeOpcode_illegal111 cnt bytes, rfl, rfl⟩

/-- A decoded opcode is well-formed, and its encoding and the bytes left over are what was read (R90). -/
theorem encode_append_of_decodeOpcode {ctrl : Byte} {bytes rest : List Byte} {i : Instr}
    (h : decodeOpcode ctrl bytes = some (i, rest)) : i.wf = true ∧ encode i ++ rest = ctrl :: bytes := by
  rcases decodeOpcode_cases ctrl bytes with ⟨j, rest', hj, hwf, hbytes⟩ | ⟨hnone, _⟩
  · obtain ⟨rfl, rfl⟩ : j = i ∧ rest' = rest := by simpa [hj] using h
    exact ⟨hwf, hbytes⟩
  · simp [hnone] at h

theorem decode_cons_eq_opcode_iff {ctrl : Byte} {bytes rest : List Byte} {i : Instr} :
    decode (ctrl :: bytes) = .opcode i rest ↔ decodeOpcode ctrl bytes = some (i, rest) := by
  rw [decode]
  cases decodeOpcode ctrl bytes <;> simp [Prod.ext_iff]

theorem decode_cons_eq_reject_iff {ctrl : Byte} {bytes : List Byte} :
    decode (ctrl :: bytes) = .reject .truncatedOperands ↔ decodeOpcode ctrl bytes = none := by
  rw [decode]
  cases decodeOpcode ctrl bytes <;> simp

/-- The encoding of a well-formed opcode decodes to it, whatever bytes follow (R90). -/
theorem decode_encode_append {i : Instr} (h : i.wf = true) (rest : List Byte) :
    decode (encode i ++ rest) = .opcode i rest := by
  cases i with
  | lit cnt colors =>
    have hcount : colors.length = runCount cnt := by simpa [Instr.wf, runCount] using h
    rw [encode, List.cons_append, decode_cons_eq_opcode_iff, decodeOpcode_lit, ← hcount, takeColors_flatMap]
  | rep cnt color =>
    refine decode_cons_eq_opcode_iff.2 ((decodeOpcode_rep cnt _).trans ?_)
    simp [colorBytes]
  | black cnt => exact decode_cons_eq_opcode_iff.2 (decodeOpcode_black cnt rest)
  | nl cnt => exact decode_cons_eq_opcode_iff.2 (decodeOpcode_nl cnt rest)
  | illegal011 cnt => exact decode_cons_eq_opcode_iff.2 (decodeOpcode_illegal011 cnt rest)
  | illegal101 cnt => exact decode_cons_eq_opcode_iff.2 (decodeOpcode_illegal101 cnt rest)
  | illegal110 cnt => exact decode_cons_eq_opcode_iff.2 (decodeOpcode_illegal110 cnt rest)
  | illegal111 cnt => exact decode_cons_eq_opcode_iff.2 (decodeOpcode_illegal111 cnt rest)

/-- Decoding and encoding are inverse to each other (R90). -/
theorem decode_eq_opcode_iff {bytes rest : List Byte} {i : Instr} :
    decode bytes = .opcode i rest ↔ i.wf = true ∧ encode i ++ rest = bytes := by
  constructor
  · intro h
    cases bytes with
    | nil => simp [decode] at h
    | cons ctrl bytes => exact encode_append_of_decodeOpcode (decode_cons_eq_opcode_iff.1 h)
  · rintro ⟨hwf, rfl⟩
    exact decode_encode_append hwf rest

/-- Settles O1. -/
theorem decodeOfEncodeIsTheOpcode : Obligations.DecodeOfEncodeIsTheOpcode :=
  fun _ rest hwf => decode_encode_append hwf rest

/-- Settles O2. -/
theorem encodeOfDecodeIsTheBytes : Obligations.EncodeOfDecodeIsTheBytes :=
  fun _ _ _ => decode_eq_opcode_iff.1

/-! ## Streams (R90) -/

/-- A stream whose first opcode is `i` decodes to `i` and what the rest of it decodes to. -/
theorem decodeStream_succ {bytes rest : List Byte} {i : Instr} (fuel : Nat) (h : decode bytes = .opcode i rest) :
    decodeStream (fuel + 1) bytes = (decodeStream fuel rest).map (i :: ·) := by
  cases bytes with
  | nil => simp [decode] at h
  | cons ctrl bytes => rw [decodeStream, h]

/-- The encodings of opcodes laid end to end decode back, with any fuel that reaches their number. -/
theorem decodeStream_flatMap_encode {program : List Instr} {fuel : Nat} (hwf : ∀ i ∈ program, i.wf = true)
    (hfuel : program.length ≤ fuel) : decodeStream fuel (program.flatMap encode) = some program := by
  induction program generalizing fuel with
  | nil => simp [decodeStream]
  | cons i program ih =>
    obtain ⟨hi, hrest⟩ := List.forall_mem_cons.1 hwf
    obtain ⟨fuel, rfl⟩ := Nat.exists_eq_add_of_le' (Nat.le_of_add_left_le hfuel)
    rw [List.flatMap_cons, decodeStream_succ fuel (decode_encode_append hi _), ih hrest (by simpa using hfuel),
      Option.map_some]

/-- Every opcode takes at least one byte. -/
theorem length_le_length_flatMap_encode (program : List Instr) : program.length ≤ (program.flatMap encode).length := by
  induction program with
  | nil => rfl
  | cons i program ih =>
    rw [List.flatMap_cons, encode_eq_cons]
    simp only [List.length_append, List.length_cons]
    omega

/-- Settles O3: the stream has at least as many bytes as opcodes, so its length is fuel enough. -/
theorem streamOfOpcodesDecodesBack : Obligations.StreamOfOpcodesDecodesBack :=
  fun program hwf => decodeStream_flatMap_encode hwf (length_le_length_flatMap_encode program)

/-! ## Length and tag of what decodes (R94, R95, R96) -/

/-- Settles O4: the decoder's two answers are told apart by whether the bytes its control byte asks for are there. -/
theorem controlByteGivesLength : Obligations.ControlByteGivesLength := by
  intro ctrl bytes
  show (ctrlLength ctrl ≤ bytes.length + 1 → ∃ i rest, decode (ctrl :: bytes) = .opcode i rest ∧
      opcodeLength i = ctrlLength ctrl ∧ rest = (ctrl :: bytes).drop (ctrlLength ctrl)) ∧
    (bytes.length + 1 < ctrlLength ctrl → _)
  rcases decodeOpcode_cases ctrl bytes with ⟨i, rest, hdec, hwf, hbytes⟩ | ⟨hnone, hshort⟩
  · have hctrl : ctrlLength ctrl = opcodeLength i := by
      rw [ctrl_of_encode_append hbytes, ctrlLength_eq_opcodeLength]
    have hlen : (encode i).length = ctrlLength ctrl := (encode_length hwf).trans hctrl.symm
    refine ⟨fun _ => ⟨i, rest, decode_cons_eq_opcode_iff.2 hdec, hctrl.symm, ?_⟩, fun hshort => ?_⟩
    · rw [← hbytes, List.drop_left' hlen]
    · have htotal := congrArg List.length hbytes
      rw [List.length_append, List.length_cons, hlen] at htotal
      omega
  · exact ⟨fun hlong => absurd hlong (by omega), fun _ => decode_cons_eq_reject_iff.2 hnone⟩

/-- Settles O5: the control byte is the decoded opcode's, and the mask leaves its tag. -/
theorem tagSelectsOpcode : Obligations.TagSelectsOpcode := by
  intro ctrl bytes rest i h
  have hmask : ∀ tag : BitVec 3, ctrl &&& 0xE0 = ctrlByte tag 0 ↔ i.tag = tag := fun tag => by
    rw [ctrl_of_encode_append (decode_eq_opcode_iff.1 h).2, ctrlByte_and_mask, ctrlByte_zero_inj]
  refine ⟨(hmask 0b000).trans ?_, (hmask 0b001).trans ?_, (hmask 0b010).trans ?_, (hmask 0b100).trans ?_,
    (hmask 0b011).trans ?_, (hmask 0b101).trans ?_, (hmask 0b110).trans ?_, (hmask 0b111).trans ?_⟩
  all_goals cases i <;> simp [Instr.tag]

/-- Settles O6. -/
theorem encodingExamples : Obligations.EncodingExamples := by
  unfold Obligations.EncodingExamples
  decide

end Sys2Proof

namespace Sys2Proof.Machine

/-! ## Fetching from the input (R61, R90, R99) -/

/-- The bytes the decoder is given are the input's from RP on. -/
theorem ctrl_cons_operandBytes (s : State) :
    inByte s s.rp.toNat :: operandBytes s =
      memRead s s.rp.toNat (min (longestOpcode - 1) (s.inLen.toNat - (s.rp.toNat + 1)) + 1) := rfl

/-- Settles O15: the opcode's encoding is a first part of the bytes read from RP on. -/
theorem fetchedOpcodeIsTheInputsBytes : Obligations.FetchedOpcodeIsTheInputsBytes := by
  intro s i rest _ hdec
  obtain ⟨hwf, hbytes⟩ := encode_append_of_decodeOpcode hdec
  rw [ctrl_cons_operandBytes] at hbytes
  have hlen := encode_length hwf
  have htotal := congrArg List.length hbytes
  rw [List.length_append, memRead_length, hlen] at htotal
  refine ⟨hwf, by omega, fun k hk => ?_⟩
  rw [← List.getElem?_append_left (l₂ := rest) (by omega), hbytes, memRead_getElem?, if_pos (by omega)]

/-- A 16-bit read sees no byte stored elsewhere (R63). -/
theorem inLE16_write_other (s : State) {a b : Nat} (v : Byte) (h0 : b ≠ a) (h1 : b + 1 ≠ a) :
    inLE16 { s with input := Memory.write s.input a v } b = inLE16 s b := by
  simp only [inLE16, inByte, Memory.read_write_other _ v h0, Memory.read_write_other _ v h1]

/-- The header step does the same with any other input buffer that holds the same two dimensions (R99, R162). -/
theorem headerStep_withInput {s t : State} {m : Memory} (hw : inLE16 { s with input := m } 0 = inLE16 s 0)
    (hh : inLE16 { s with input := m } 4 = inLE16 s 4) (h : headerStep s = .next t) :
    headerStep { s with input := m } = .next { t with input := m } := by
  unfold headerStep at *
  rw [hw, hh]
  dsimp only
  split_ifs at h ⊢ <;> cases h <;> rfl

theorem step_of_header {s : State} (ht : blockTurn s = true) (hp : s.phase = .header) :
    step s = headerStep (popHost s) := by
  simp [step_of_blockTurn ht, blockStep, hp]

/-- Settles O27: the header step reads offsets 0, 1, 4 and 5 only. -/
theorem reservedHeaderBytesIgnored : Obligations.ReservedHeaderBytesIgnored := by
  intro s t a v ha ht hp h
  rw [step_of_header ht hp] at h
  refine (step_of_header (s := { s with input := Memory.write s.input a v }) ht hp).trans ?_
  exact headerStep_withInput (inLE16_write_other (popHost s) v (by omega) (by omega))
    (inLE16_write_other (popHost s) v (by omega) (by omega)) h

end Sys2Proof.Machine

namespace Sys2Proof.Machine

/-! ## The color16 unpacker (R120-R124): each channel as a number -/

theorem channel4_toNat (f : BitVec 4) : (channel4 f).toNat = f.toNat * 8 := by
  have hf := f.isLt
  simp only [channel4, BitVec.toNat_shiftLeft, BitVec.toNat_setWidth, Nat.shiftLeft_eq]
  omega

theorem channel5_toNat (f : BitVec 5) : (channel5 f).toNat = f.toNat * 8 := by
  have hf := f.isLt
  simp only [channel5, BitVec.toNat_shiftLeft, BitVec.toNat_setWidth, Nat.shiftLeft_eq]
  omega

theorem unpack_compat_b (c : Color) : (unpack .compat c).b = 0 := rfl

theorem unpack_compat_g_toNat (c : Color) : (unpack .compat c).g.toNat = c.toNat / 64 % 16 * 8 := by
  simp [unpack, unpackCompat, channel4_toNat, Nat.shiftRight_eq_div_pow]

theorem unpack_compat_r_toNat (c : Color) : (unpack .compat c).r.toNat = c.toNat / 2048 % 16 * 8 := by
  simp [unpack, unpackCompat, channel4_toNat, Nat.shiftRight_eq_div_pow]

theorem unpack_rgb555_b_toNat (c : Color) : (unpack .rgb555 c).b.toNat = c.toNat / 2048 % 32 * 8 := by
  simp [unpack, unpackRGB555, channel5_toNat, Nat.shiftRight_eq_div_pow]

theorem unpack_rgb555_g_toNat (c : Color) : (unpack .rgb555 c).g.toNat = c.toNat / 64 % 32 * 8 := by
  simp [unpack, unpackRGB555, channel5_toNat, Nat.shiftRight_eq_div_pow]

theorem unpack_rgb555_r_toNat (c : Color) : (unpack .rgb555 c).r.toNat = c.toNat / 2 % 32 * 8 := by
  simp [unpack, unpackRGB555, channel5_toNat, Nat.shiftRight_eq_div_pow]

theorem pixel_eq_iff_toNat {p q : Pixel} :
    p = q ↔ p.b.toNat = q.b.toNat ∧ p.g.toNat = q.g.toNat ∧ p.r.toNat = q.r.toNat := by
  cases p
  cases q
  simp only [Pixel.mk.injEq, BitVec.toNat_inj]

/-- Settles O7: the two fields that COMPAT reads determine the pixel's channels. -/
theorem compatUnpack : Obligations.CompatUnpack := by
  intro c
  refine ⟨unpack_compat_b c, unpack_compat_g_toNat c, unpack_compat_r_toNat c, fun d hg hr => ?_⟩
  rw [pixel_eq_iff_toNat]
  simp only [unpack_compat_b, unpack_compat_g_toNat, unpack_compat_r_toNat, hg, hr, and_self]

/-- The three 5-bit fields at offsets 1, 6 and 11 are all of bits 15:1 (R121, R126). -/
theorem rgb555_fields_eq_iff (c d : Color) :
    (d.toNat / 2048 % 32 = c.toNat / 2048 % 32 ∧ d.toNat / 64 % 32 = c.toNat / 64 % 32 ∧
      d.toNat / 2 % 32 = c.toNat / 2 % 32) ↔ d.toNat / 2 = c.toNat / 2 := by
  have hc := c.isLt
  have hd := d.isLt
  omega

/-- Settles O8: the pixel holds the three fields of bits 15:1, one in each channel. -/
theorem rgb555Unpack : Obligations.Rgb555Unpack := by
  intro c
  refine ⟨unpack_rgb555_r_toNat c, unpack_rgb555_g_toNat c, unpack_rgb555_b_toNat c, fun d => ?_⟩
  rw [pixel_eq_iff_toNat, ← rgb555_fields_eq_iff]
  simp only [unpack_rgb555_b_toNat, unpack_rgb555_g_toNat, unpack_rgb555_r_toNat,
    Nat.mul_left_inj (by decide : (8 : Nat) ≠ 0)]

end Sys2Proof.Machine

namespace Sys2Proof.Machine

/-! ## The framebuffer accumulator, a run at a time (R142) -/

/-- A run that fits passes the checks and is appended (R142-R144). -/
theorem appendSeq_of_runFits {pixels : List Pixel} {s : State} (hfit : runFits pixels.length s) (len : Nat) :
    appendSeq pixels len s = .next (advanceRp len (moveCursor pixels.length (fbAppendAll pixels s))) := by
  obtain ⟨hrow, hframe, hcap⟩ := hfit
  rcases appendSeq_cases pixels len s with ⟨_, _⟩ | ⟨_, _, _⟩ | ⟨_, _, _, _⟩ | ⟨_, _, _, he⟩
  · omega
  · omega
  · omega
  · exact he

/-- A single-pixel run, with RP where it was (R142): one `FBAppend`, and CURSOR one to the right. -/
def appendOne (px : Pixel) (s : State) : State := moveCursor 1 (fbAppend px s)

@[simp] theorem appendOne_phase (px : Pixel) (s : State) : (appendOne px s).phase = s.phase := rfl

theorem advanceRp_zero (s : State) : advanceRp 0 s = s := by
  simp [advanceRp]

theorem appendRun_one {s : State} (px : Pixel) (hfit : runFits 1 s) : appendRun 1 px 0 s = .next (appendOne px s) := by
  refine (appendSeq_of_runFits (pixels := [px]) hfit 0).trans ?_
  rw [advanceRp_zero]
  rfl

theorem runFits.mono {m n : Nat} {s : State} (hfit : runFits n s) (hle : m ≤ n) : runFits m s := by
  obtain ⟨hrow, hframe, hcap⟩ := hfit
  exact ⟨by omega, by omega, hcap⟩

/-- A run that fits leaves room for its rest after its first pixel: no register wraps round (R26, R27). -/
theorem runFits_appendOne {n : Nat} {s : State} (px : Pixel) (hr : frameRegs s) (hfit : runFits (n + 1) s) :
    runFits n (appendOne px s) := by
  obtain ⟨hrow, hframe, hcap⟩ := hfit
  have harea := frameRegs_area_lt hr
  have hw := s.w.isLt
  have hcursor : (appendOne px s).cursor.toNat = s.cursor.toNat + 1 :=
    toNat_add_ofNat (x := s.cursor) (n := 1) (by omega)
  have hcount : (appendOne px s).pixCount.toNat = s.pixCount.toNat + 1 :=
    toNat_add_ofNat (x := s.pixCount) (n := 1) (by omega)
  exact ⟨by rwa [hcursor, Nat.add_right_comm], by rwa [hcount, Nat.add_right_comm], hcap⟩

/-- Appends do not read CURSOR. -/
theorem fbAppendAll_moveCursor (n : Nat) (pixels : List Pixel) (s : State) :
    fbAppendAll pixels (moveCursor n s) = moveCursor n (fbAppendAll pixels s) := by
  induction pixels generalizing s with
  | nil => rfl
  | cons px pixels ih => exact ih (fbAppend px s)

theorem moveCursor_moveCursor (m n : Nat) (s : State) : moveCursor n (moveCursor m s) = moveCursor (m + n) s := by
  simp only [moveCursor, BitVec.ofNat_add, BitVec.add_assoc]

/-- Appending a run is appending its first pixel and then the rest (R142). -/
theorem moveCursor_fbAppendAll_cons (px : Pixel) (pixels : List Pixel) (s : State) :
    moveCursor (px :: pixels).length (fbAppendAll (px :: pixels) s) =
      moveCursor pixels.length (fbAppendAll pixels (appendOne px s)) := by
  rw [appendOne, fbAppendAll_moveCursor, moveCursor_moveCursor, List.length_cons, Nat.add_comm]
  rfl

/-- Where no fault is taken, the next single-pixel run goes on from the state of the one before. -/
theorem appendEach_cons {s : State} (px : Pixel) (pixels : List Pixel) (hfit : runFits 1 s) (hp : s.phase ≠ .fault) :
    appendEach (px :: pixels) s = appendEach pixels (appendOne px s) := by
  simp only [appendEach, appendRun_one px hfit, appendOne_phase, hp, if_false]

/-- The single-pixel runs of a list that fits append its pixels in order and move CURSOR past them (R142). -/
theorem appendEach_of_runFits (pixels : List Pixel) (s : State) (hfit : runFits pixels.length s) (hr : frameRegs s)
    (hp : s.phase ≠ .fault) : appendEach pixels s = .next (moveCursor pixels.length (fbAppendAll pixels s)) := by
  induction pixels generalizing s with
  | nil => simp [appendEach, fbAppendAll, moveCursor]
  | cons px pixels ih =>
    calc appendEach (px :: pixels) s
        = appendEach pixels (appendOne px s) := appendEach_cons px pixels (hfit.mono (by simp)) hp
      _ = .next (moveCursor pixels.length (fbAppendAll pixels (appendOne px s))) :=
          ih (appendOne px s) (runFits_appendOne px hr hfit) hr hp
      _ = .next (moveCursor (px :: pixels).length (fbAppendAll (px :: pixels) s)) := by
          rw [moveCursor_fbAppendAll_cons]

/-- Settles O23: both are the pixels appended in order and CURSOR moved past them. -/
theorem appendSeqIsSinglePixelRuns : Obligations.AppendSeqIsSinglePixelRuns := by
  intro pixels s hfit hr hp
  refine ⟨_, appendSeq_of_runFits hfit 0, ?_⟩
  rw [advanceRp_zero]
  exact appendEach_of_runFits pixels s hfit hr hp

/-! ## Raster order (R146) -/

section
variable {s t : State} {j : Nat}

/-- PIX_COUNT is whole rows and CURSOR, so the places from CURSOR on to the row's end lie in one row (R33, R146). -/
theorem FrameInv.raster_place (hi : FrameInv s) (hj : s.cursor.toNat + j < s.w.toNat) :
    (s.pixCount.toNat + j) / s.w.toNat = s.pixCount.toNat / s.w.toNat ∧
      (s.pixCount.toNat + j) % s.w.toNat = s.cursor.toNat + j := by
  obtain ⟨_, _, _, _, ⟨rows, _, hcount⟩, _⟩ := hi
  have place : ∀ k, s.cursor.toNat + k < s.w.toNat →
      (s.pixCount.toNat + k) / s.w.toNat = rows ∧ (s.pixCount.toNat + k) % s.w.toNat = s.cursor.toNat + k :=
    fun k hk => (Nat.div_mod_unique (by omega)).2 ⟨by rw [hcount, Nat.mul_comm]; omega, hk⟩
  obtain ⟨hrow, hcol⟩ := place j hj
  obtain ⟨hfirst, _⟩ := place 0 (by omega)
  exact ⟨hrow.trans hfirst.symm, hcol⟩

/-- The entry of the place `j` to the right of CURSOR is the `j`-th after PIX_COUNT (R146). -/
theorem FrameInv.raster_index (hi : FrameInv s) (hj : s.cursor.toNat + j < s.w.toNat) :
    s.pixCount.toNat / s.w.toNat * s.w.toNat + (s.cursor.toNat + j) = s.pixCount.toNat + j := by
  obtain ⟨hrow, hcol⟩ := hi.raster_place hj
  rw [← hrow, ← hcol, Nat.div_add_mod']

/-- A completed opcode appends no more pixels than its row has room for: a run fits the row, and a newline's padding
ends with it (R143, R145). -/
theorem Completed.place_in_row {i : Instr} (hc : Completed i s t) (hj : j < pixelsAppended i s) :
    s.cursor.toNat + j < s.w.toNat := by
  rcases hc.column with ⟨hrow, _⟩ | ⟨hpad, _⟩
  · omega
  · rw [hpad, padCount] at hj
    omega

/-- A completed opcode's pixels are read back at the entries from PIX_COUNT on (R28, R142). -/
theorem Completed.fbRead_run {i : Instr} (hc : Completed i s t) (hr : frameRegs s) {px : Pixel}
    (hpx : (pixelRun i s)[j]? = some px) : fbRead t (s.pixCount.toNat + j) = px := by
  obtain ⟨hj, _⟩ := List.getElem?_eq_some_iff.1 hpx
  rw [pixelRun_length] at hj
  rw [fbRead, hc.pixCount_toNat hr, if_pos (by omega), hc.get hr, if_pos (by omega), Nat.add_sub_cancel_left, hpx,
    Option.getD_some]

end

/-- Settles O25: an opcode that leaves PHASE in DECODE completed, and its `j`-th pixel is the `j`-th entry after
PIX_COUNT. -/
theorem rasterOrder : Obligations.RasterOrder := by
  intro s hi
  refine ⟨fun _ hj => hi.raster_place hj, fun i t _ h ht j px hpx => ?_⟩
  rcases exec_completed h with ⟨_, _, rfl⟩ | hc
  · cases ht
  · obtain ⟨hj, _⟩ := List.getElem?_eq_some_iff.1 hpx
    have hin := hc.place_in_row (by rwa [pixelRun_length] at hj)
    have hr : frameRegs s := hi.1
    exact ⟨hin, by rw [hi.raster_index hin]; exact hc.fbRead_run hr hpx⟩

end Sys2Proof.Machine

/-! # The decoder (spec/42_decoder.md)

What a run of pixels and a newline answer, clause by clause (`RunOutcome`, `Appended`), for the opcodes and for the
steps that fetch them; the steps that are no opcode; and whole runs, from one invariant (`RunInv`) that every step of a
run keeps. -/

namespace Sys2Proof.Machine

/-! ## Runs of pixels and newlines, clause by clause (R142-R145) -/

/-- `o` is the next state after an opcode of `len` bytes that appended `n` pixels to `s`, the `k`-th of them `pixel k`,
and left CURSOR at `col` (R142, R145). -/
def Appended (n len col : Nat) (pixel : Nat → Pixel) (s : State) (o : Host.Outcome State Fault Refusal) : Prop :=
  ∃ t, o = .next t ∧ opcodeDone n len col s t ∧ ∀ k, k < n → fbRead t (s.pixCount.toNat + k) = pixel k

/-- `o` is what a run of `n` pixels, by an opcode of `len` bytes, answers in `s` (R142-R144): the row fault, else the
frame fault, else the pixels appended. -/
structure RunOutcome (n len : Nat) (pixel : Nat → Pixel) (s : State) (o : Host.Outcome State Fault Refusal) : Prop where
  overrun : s.w.toNat < s.cursor.toNat + n → o = .next (raiseFault .rowOverrun s.rp s)
  overflow : s.cursor.toNat + n ≤ s.w.toNat → s.w.toNat * s.h.toNat < s.pixCount.toNat + n →
    o = .next (raiseFault .frameOverflow s.rp s)
  completes : runFits n s → frameRegs s → Appended n len (s.cursor.toNat + n) pixel s o

/-- Pixels appended with RP and CURSOR moved, as a run and a newline both do it, where PIX_COUNT does not wrap round. -/
theorem appended_fbAppendAll {pixels : List Pixel} {s : State} {pixel : Nat → Pixel} {cursor : Word} {col : Nat}
    (len : Nat) (hcol : cursor.toNat = col) (h : s.pixCount.toNat + pixels.length < 2 ^ 32)
    (hpx : ∀ k, k < pixels.length → pixels[k]? = some (pixel k)) :
    Appended pixels.length len col pixel s
      (.next { fbAppendAll pixels s with rp := s.rp + BitVec.ofNat 32 len, cursor := cursor }) := by
  refine ⟨_, rfl, ⟨?_, rfl, hcol, fbAppendAll_pixCount_toNat pixels s h, fun i hi => ?_⟩, fun k hk => ?_⟩
  · rw [fbAppendAll_eq]
  · rw [fbAppendAll_get pixels s h, if_neg (by omega)]
  · have hread := getElem?_eq_fbRead_fbAppendAll h (k := s.pixCount.toNat + k) (by omega) (by omega)
    rw [Nat.add_sub_cancel_left, hpx k hk] at hread
    exact (Option.some.inj hread).symm

theorem appendSeq_outcome {pixels : List Pixel} {pixel : Nat → Pixel} (len : Nat) (s : State)
    (hpx : ∀ k, k < pixels.length → pixels[k]? = some (pixel k)) :
    RunOutcome pixels.length len pixel s (appendSeq pixels len s) := by
  refine ⟨fun hover => ?_, fun hrow hover => ?_, fun hfit hr => ?_⟩
  · rcases appendSeq_cases pixels len s with ⟨_, he⟩ | ⟨_, _, _⟩ | ⟨_, _, _, _⟩ | ⟨_, _, _, _⟩
    · exact he
    all_goals omega
  · rcases appendSeq_cases pixels len s with ⟨_, _⟩ | ⟨_, _, he⟩ | ⟨_, _, _, _⟩ | ⟨_, _, _, _⟩
    · omega
    · exact he
    all_goals omega
  · have ⟨hrow, hframe, _⟩ := hfit
    have harea := frameRegs_area_lt hr
    have hw := s.w.isLt
    have hcol : (s.cursor + BitVec.ofNat 32 pixels.length).toNat = s.cursor.toNat + pixels.length :=
      toNat_add_ofNat (by omega)
    have happ := appended_fbAppendAll (s := s) len hcol (by omega) hpx
    rw [appendSeq_of_runFits hfit]
    simpa only [advanceRp, moveCursor, fbAppendAll_rp, fbAppendAll_cursor] using happ

/-- A run of one pixel, `n` times (R142). -/
theorem appendRun_outcome (n : Nat) (px : Pixel) (len : Nat) (s : State) :
    RunOutcome n len (fun _ => px) s (appendRun n px len s) := by
  have hrun := appendSeq_outcome (pixels := List.replicate n px) (pixel := fun _ => px) len s
    (fun k hk => List.getElem?_replicate_of_lt (by simpa using hk))
  rwa [List.length_replicate] at hrun

theorem padRow_overflow (len : Nat) {s : State} (h : s.w.toNat * s.h.toNat < s.pixCount.toNat + padCount s) :
    padRow len s = .next (raiseFault .frameOverflow s.rp s) := by
  rcases padRow_cases len s with ⟨_, he⟩ | ⟨_, _, _⟩ | ⟨_, _, _⟩
  · exact he
  all_goals omega

/-- A newline's padding that fits the frame and the store is appended, and CURSOR goes to column 0 (R145). -/
theorem padRow_appended (len : Nat) {s : State} (hframe : s.pixCount.toNat + padCount s ≤ s.w.toNat * s.h.toNat)
    (hcap : s.w.toNat * s.h.toNat ≤ s.fbCapacity) (hr : frameRegs s) :
    Appended (padCount s) len 0 (fun _ => Pixel.black) s (padRow len s) := by
  rcases padRow_cases len s with ⟨_, _⟩ | ⟨_, _, _⟩ | ⟨_, _, he⟩
  · omega
  · omega
  · have harea := frameRegs_area_lt hr
    have happ := appended_fbAppendAll (pixels := List.replicate (padCount s) Pixel.black) (s := s)
      (pixel := fun _ => Pixel.black) (cursor := 0) (col := 0) len rfl (by rw [List.length_replicate]; omega)
      (fun k hk => List.getElem?_replicate_of_lt (by simpa using hk))
    rw [List.length_replicate] at happ
    rw [he]
    simpa only [advanceRp, homeCursor, fbAppendAll_rp] using happ

/-! ## Opcodes (R165-R190) -/

/-- BLACK is a run of black pixels (R175). -/
theorem exec_black (cnt : BitVec 5) (s : State) : exec (.black cnt) s = appendRun (runCount cnt) Pixel.black 1 s := rfl

/-- NL is a newline, whatever its count field (R98, R185). -/
theorem exec_nl (cnt : BitVec 5) (s : State) : exec (.nl cnt) s = padRow 1 s := rfl

/-- LIT with its bytes in the input is the run of its colors' pixels (R170). -/
theorem exec_lit_inInput {cnt : BitVec 5} (colors : List Color) {s : State}
    (h : s.rp.toNat + (1 + 2 * runCount cnt) ≤ s.inLen.toNat) :
    exec (.lit cnt colors) s = appendSeq (colors.map (unpack s.unpackMode)) (1 + 2 * runCount cnt) s := by
  rcases execLit_cases cnt colors s with ⟨_, _⟩ | ⟨_, he⟩
  · omega
  · exact he

/-- REP with its bytes in the input is a run of its color's pixel (R180). -/
theorem exec_rep_inInput (cnt : BitVec 5) (color : Color) {s : State} (h : s.rp.toNat + 3 ≤ s.inLen.toNat) :
    exec (.rep cnt color) s = appendRun (runCount cnt) (unpack s.unpackMode color) 3 s := by
  rcases execRep_cases cnt color s with ⟨_, _⟩ | ⟨_, he⟩
  · omega
  · exact he

/-- The run of a list of colors: the `k`-th pixel is the `k`-th color's (R170). -/
theorem appendSeq_colors_outcome {colors : List Color} {color : Nat → Color} (len : Nat) (s : State)
    (hcolor : ∀ k, k < colors.length → colors[k]? = some (color k)) :
    RunOutcome colors.length len (fun k => unpack s.unpackMode (color k)) s
      (appendSeq (colors.map (unpack s.unpackMode)) len s) := by
  have hrun := appendSeq_outcome (pixels := colors.map (unpack s.unpackMode))
    (pixel := fun k => unpack s.unpackMode (color k)) len s (fun k hk => by
      rw [List.length_map] at hk
      rw [List.getElem?_map, hcolor k hk, Option.map_some])
  rwa [List.length_map] at hrun

/-- Settles O9. -/
theorem litAppendsItsColors : Obligations.LitAppendsItsColors := by
  intro cnt colors s hwf hin hfit hr
  have hcount : colors.length = runCount cnt := by simpa [Instr.wf, runCount] using hwf
  have hrun := appendSeq_colors_outcome (colors := colors) (color := fun k => colors.getD k 0) (1 + 2 * runCount cnt) s
    (fun k hk => by simp [hk])
  rw [exec_lit_inInput colors (by omega)]
  obtain ⟨t, ht, hdone, hread⟩ := hrun.completes hfit hr
  refine ⟨t, ht, by rwa [← hcount] at hdone, fun k hk => ?_⟩
  simp only [hread k hk, List.getD_eq_getElem _ _ hk]

/-- Settles O10. -/
theorem blackAppendsBlackPixels : Obligations.BlackAppendsBlackPixels := by
  intro cnt s hfit hr
  rw [exec_black]
  exact (appendRun_outcome (runCount cnt) Pixel.black 1 s).completes hfit hr

/-- Settles O11. -/
theorem repAppendsOneColor : Obligations.RepAppendsOneColor := by
  intro cnt color s hin hfit hr
  rw [exec_rep_inInput cnt color hin]
  exact (appendRun_outcome (runCount cnt) (unpack s.unpackMode color) 3 s).completes hfit hr

/-- Settles O12. -/
theorem nlPadsTheRow : Obligations.NlPadsTheRow := by
  intro cnt s _ hframe hcap hr
  rw [exec_nl]
  exact padRow_appended 1 hframe hcap hr

/-- Settles O13: each illegal constructor's arm is the fault itself. -/
theorem illegalTakesUnrecognizedOpcode : Obligations.IllegalTakesUnrecognizedOpcode := by
  rintro cnt s i (rfl | rfl | rfl | rfl) <;> rfl

/-- The color 0 unpacks to black in either mode (R125). -/
theorem unpack_zero (mode : UnpackMode) : unpack mode 0 = Pixel.black := by
  cases mode <;> decide

/-- Settles O24: both are the same run of black pixels, of opcodes of 1 and of 3 bytes. -/
theorem blackIsRepOfColorZero : Obligations.BlackIsRepOfColorZero := by
  intro cnt s t hin h hphase hne
  rw [exec_rep_inInput cnt 0 hin, unpack_zero]
  rw [exec_black] at h
  rcases appendSeq_next h with ⟨code, _, rfl⟩ | ⟨hrow, hframe, hstore, rfl⟩
  · exact absurd hphase.symm hne
  · rcases appendSeq_cases (List.replicate (runCount cnt) Pixel.black) 3 s with ⟨_, _⟩ | ⟨_, _, _⟩ | ⟨_, _, _, _⟩ |
      ⟨_, _, _, he⟩
    · omega
    · omega
    · omega
    · refine he.trans ?_
      simp only [advanceRp, BitVec.add_assoc]
      rfl

end Sys2Proof.Machine

namespace Sys2Proof.Machine

/-! ## Fetching an opcode in the decode step (R93, R94, R164, R165) -/

/-- A control byte as a number: `32 * TAG + CNT` (R91). -/
theorem ctrlByte_toNat (tag : BitVec 3) (cnt : BitVec 5) : (ctrlByte tag cnt).toNat = 32 * tag.toNat + cnt.toNat := by
  revert tag cnt; decide

theorem eq_ctrlByte_of_toNat {b : Byte} {tag : BitVec 3} {cnt : BitVec 5} (h : b.toNat = 32 * tag.toNat + cnt.toNat) :
    b = ctrlByte tag cnt :=
  BitVec.eq_of_toNat_eq (h.trans (ctrlByte_toNat tag cnt).symm)

/-- Taking `n` colors from bytes of the input reads the 16-bit values there (R63, R93). -/
theorem takeColors_memRead (s : State) (a : Nat) {n m : Nat} (h : 2 * n ≤ m) :
    takeColors n (memRead s a m) =
      some ((List.range n).map fun k => inLE16 s (a + 2 * k), memRead s (a + 2 * n) (m - 2 * n)) := by
  induction n generalizing a m with
  | zero => rfl
  | succ n ih =>
    obtain ⟨m, rfl⟩ := Nat.exists_eq_add_of_le' (show 2 ≤ m by omega)
    have hplace : ∀ k, a + 1 + 1 + 2 * k = a + 2 * (k + 1) := fun k => by omega
    rw [memRead, memRead, takeColors, ih (a + 1 + 1) (by omega), List.range_succ_eq_map]
    simp only [hplace, List.map_cons, List.map_map]
    rw [show m + 2 - 2 * (n + 1) = m - 2 * n by omega]
    rfl

theorem operandBytes_length (s : State) :
    (operandBytes s).length = min (longestOpcode - 1) (s.inLen.toNat - (s.rp.toNat + 1)) := memRead_length _ _ _

/-- The host's moves are no part of what is fetched. -/
@[simp] theorem operandBytes_popHost (s : State) : operandBytes (popHost s) = operandBytes s :=
  memRead_congr (s := s) (t := popHost s) rfl _ _

section
variable {s : State} {cnt : BitVec 5}

/-- A LIT with its bytes in the input decodes to the colors that stand there (R93, R170). -/
theorem decodeOpcode_lit_inInput (hctrl : inByte s s.rp.toNat = ctrlByte 0b000 cnt)
    (hin : s.rp.toNat + (1 + 2 * runCount cnt) ≤ s.inLen.toNat) :
    ∃ rest, decodeOpcode (inByte s s.rp.toNat) (operandBytes s) =
      some (.lit cnt ((List.range (runCount cnt)).map fun k => inLE16 s (s.rp.toNat + 1 + 2 * k)), rest) := by
  have hmax := runCount_le cnt
  rw [hctrl, decodeOpcode_lit, operandBytes, takeColors_memRead s _ (by rw [longestOpcode]; omega)]
  exact ⟨_, rfl⟩

/-- A LIT whose bytes pass the end of the input does not decode (R170; log 13). -/
theorem decodeOpcode_lit_truncated (hctrl : inByte s s.rp.toNat = ctrlByte 0b000 cnt)
    (hshort : s.inLen.toNat < s.rp.toNat + (1 + 2 * runCount cnt)) :
    decodeOpcode (inByte s s.rp.toNat) (operandBytes s) = none := by
  have hlen := operandBytes_length s
  rw [hctrl, decodeOpcode_lit]
  rcases takeColors_cases (runCount cnt) (operandBytes s) with ⟨colors, rest, _, hcount, hbytes⟩ | ⟨hnone, _⟩
  · have htotal := congrArg List.length hbytes
    rw [List.length_append, flatMap_colorBytes_length] at htotal
    have := runCount_pos cnt
    omega
  · rw [hnone]

/-- A REP with its bytes in the input decodes to the color that stands there (R93, R180). -/
theorem decodeOpcode_rep_inInput (hctrl : inByte s s.rp.toNat = ctrlByte 0b010 cnt)
    (hin : s.rp.toNat + 3 ≤ s.inLen.toNat) :
    ∃ rest, decodeOpcode (inByte s s.rp.toNat) (operandBytes s) =
      some (.rep cnt (inLE16 s (s.rp.toNat + 1)), rest) := by
  have htwo : 2 ≤ min (longestOpcode - 1) (s.inLen.toNat - (s.rp.toNat + 1)) := by rw [longestOpcode]; omega
  obtain ⟨n, hn⟩ := Nat.exists_eq_add_of_le' htwo
  rw [hctrl, decodeOpcode_rep, operandBytes, hn]
  exact ⟨_, rfl⟩

/-- A REP whose bytes pass the end of the input does not decode (R180; log 13). -/
theorem decodeOpcode_rep_truncated (hctrl : inByte s s.rp.toNat = ctrlByte 0b010 cnt)
    (hshort : s.inLen.toNat < s.rp.toNat + 3) : decodeOpcode (inByte s s.rp.toNat) (operandBytes s) = none := by
  have hlen := operandBytes_length s
  rw [hctrl, decodeOpcode_rep]
  match hbytes : operandBytes s with
  | [] | [_] => rfl
  | lo :: hi :: rest =>
    rw [hbytes, List.length_cons, List.length_cons] at hlen
    omega

/-- An illegal control byte decodes to an illegal opcode, whatever follows (R97, R190). -/
theorem decodeOpcode_illegal {ctrl : Byte} (bytes : List Byte)
    (h : 0x60 ≤ ctrl.toNat ∧ ctrl.toNat ≤ 0x7F ∨ 0xA0 ≤ ctrl.toNat) :
    ∃ cnt i, decodeOpcode ctrl bytes = some (i, bytes) ∧
      (i = .illegal011 cnt ∨ i = .illegal101 cnt ∨ i = .illegal110 cnt ∨ i = .illegal111 cnt) := by
  obtain ⟨cnt, hctrl⟩ := ctrlByte_tag_cases ctrl
  have hcnt := cnt.isLt
  have legal : ∀ n, n = 0x00 ∨ n = 0x20 ∨ n = 0x40 ∨ n = 0x80 → ctrl.toNat ≠ n + cnt.toNat := fun n hn => by omega
  rcases hctrl with rfl | rfl | rfl | rfl | rfl | rfl | rfl | rfl
  · exact absurd (ctrlByte_toNat _ cnt) (legal 0x00 (.inl rfl))
  · exact absurd (ctrlByte_toNat _ cnt) (legal 0x20 (.inr (.inl rfl)))
  · exact absurd (ctrlByte_toNat _ cnt) (legal 0x40 (.inr (.inr (.inl rfl))))
  · exact ⟨cnt, _, decodeOpcode_illegal011 cnt bytes, .inl rfl⟩
  · exact absurd (ctrlByte_toNat _ cnt) (legal 0x80 (.inr (.inr (.inr rfl))))
  · exact ⟨cnt, _, decodeOpcode_illegal101 cnt bytes, .inr (.inl rfl)⟩
  · exact ⟨cnt, _, decodeOpcode_illegal110 cnt bytes, .inr (.inr (.inl rfl))⟩
  · exact ⟨cnt, _, decodeOpcode_illegal111 cnt bytes, .inr (.inr (.inr rfl))⟩

end

/-! ## The decode step, opcode by opcode (R164-R190) -/

theorem step_of_decode {s : State} (ht : blockTurn s = true) (hp : s.phase = .decode) :
    step s = decodeStep (popHost s) := by
  simp [step_of_blockTurn ht, blockStep, hp]

/-- Settles O14. -/
theorem stepRunsDecodedOpcode : Obligations.StepRunsDecodedOpcode := by
  intro s i rest ht hp hu hdec
  rw [step_of_decode ht hp]
  rw [← operandBytes_popHost] at hdec
  rcases decodeStep_cases (popHost s) with ⟨hend, _⟩ | ⟨_, j, _, hj, he⟩ | ⟨_, hnone, _⟩
  · exact absurd hu (Nat.not_lt.2 hend)
  · obtain ⟨rfl, _⟩ : j = i ∧ _ := by simpa using hj.symm.trans hdec
    exact he
  · cases hnone.symm.trans hdec

/-- Where the bytes at RP are too few for their opcode, the step takes TruncatedOpcode at RP (R170, R180; log 13). -/
theorem step_of_truncated {s : State} (ht : blockTurn s = true) (hp : s.phase = .decode)
    (hu : s.rp.toNat < s.inLen.toNat) (hdec : decodeOpcode (inByte s s.rp.toNat) (operandBytes s) = none) :
    step s = .next (raiseFault .truncatedOpcode s.rp (popHost s)) := by
  rw [step_of_decode ht hp]
  rw [← operandBytes_popHost] at hdec
  rcases decodeStep_cases (popHost s) with ⟨hend, _⟩ | ⟨_, j, _, hj, _⟩ | ⟨_, _, he⟩
  · exact absurd hu (Nat.not_lt.2 hend)
  · cases hj.symm.trans hdec
  · exact he

/-- Settles O16. -/
theorem litStep : Obligations.LitStep := by
  intro s cnt ht hp hu hb
  have hctrl : inByte s s.rp.toNat = ctrlByte 0b000 cnt := eq_ctrlByte_of_toNat (by simpa using hb)
  have hcount : cnt.toNat + 1 = runCount cnt := rfl
  have hrun : s.rp.toNat + 1 + 2 * (cnt.toNat + 1) ≤ s.inLen.toNat →
      RunOutcome (runCount cnt) (1 + 2 * runCount cnt)
        (fun k => unpack s.unpackMode (inLE16 s (s.rp.toNat + 1 + 2 * k))) (popHost s) (step s) := fun hin => by
    obtain ⟨rest, hdec⟩ := decodeOpcode_lit_inInput hctrl (by omega)
    rw [stepRunsDecodedOpcode s _ rest ht hp hu hdec, exec_lit_inInput (s := popHost s) _ (by simp; omega)]
    have hcolors := appendSeq_colors_outcome
      (colors := (List.range (runCount cnt)).map fun k => inLE16 s (s.rp.toNat + 1 + 2 * k))
      (color := fun k => inLE16 s (s.rp.toNat + 1 + 2 * k)) (1 + 2 * runCount cnt) (popHost s)
      (fun k hk => by rw [List.getElem?_map, List.getElem?_range (by simpa using hk), Option.map_some])
    rwa [List.length_map, List.length_range] at hcolors
  refine ⟨fun hshort => ?_, fun hin => (hrun hin).overrun, fun hin => (hrun hin).overflow,
    fun hin => (hrun hin).completes⟩
  exact step_of_truncated ht hp hu (decodeOpcode_lit_truncated hctrl (by omega))

/-- Settles O17. -/
theorem blackStep : Obligations.BlackStep := by
  intro s cnt ht hp hu hb
  have hctrl : inByte s s.rp.toNat = ctrlByte 0b001 cnt := eq_ctrlByte_of_toNat (by simpa using hb)
  have hdec := decodeOpcode_black cnt (operandBytes s)
  rw [← hctrl] at hdec
  have hrun := appendRun_outcome (runCount cnt) Pixel.black 1 (popHost s)
  rw [stepRunsDecodedOpcode s _ _ ht hp hu hdec, exec_black]
  exact ⟨hrun.overrun, hrun.overflow, hrun.completes⟩

/-- Settles O18. -/
theorem repStep : Obligations.RepStep := by
  intro s cnt ht hp hu hb
  have hctrl : inByte s s.rp.toNat = ctrlByte 0b010 cnt := eq_ctrlByte_of_toNat (by simpa using hb)
  have hrun : s.rp.toNat + 3 ≤ s.inLen.toNat →
      RunOutcome (runCount cnt) 3 (fun _ => unpack s.unpackMode (inLE16 s (s.rp.toNat + 1))) (popHost s) (step s) :=
    fun hin => by
      obtain ⟨rest, hdec⟩ := decodeOpcode_rep_inInput hctrl hin
      rw [stepRunsDecodedOpcode s _ rest ht hp hu hdec, exec_rep_inInput (s := popHost s) cnt _ hin]
      exact appendRun_outcome (runCount cnt) _ 3 (popHost s)
  refine ⟨fun hshort => ?_, fun hin => (hrun hin).overrun, fun hin => (hrun hin).overflow,
    fun hin => (hrun hin).completes⟩
  exact step_of_truncated ht hp hu (decodeOpcode_rep_truncated hctrl hshort)

/-- Where a row's padding passes the frame, all H rows have ended (R33, R185): PIX_COUNT is `rows` rows and CURSOR, and
one row more is more than H of them. -/
theorem FrameInv.full_of_padding_overflow {s : State} (hi : FrameInv s)
    (h : s.w.toNat * s.h.toNat < s.pixCount.toNat + padCount s) :
    s.pixCount.toNat = s.w.toNat * s.h.toNat ∧ s.cursor.toNat = 0 := by
  obtain ⟨_, hcursor, hpix, _, ⟨rows, hrows, hcount⟩, _⟩ := hi
  have hnext : s.h.toNat * s.w.toNat < (rows + 1) * s.w.toNat := by
    rw [Nat.mul_comm, Nat.succ_mul]
    rw [padCount] at h
    omega
  have hall : rows = s.h.toNat := by
    have := Nat.lt_of_mul_lt_mul_right hnext
    omega
  rw [hall, Nat.mul_comm] at hcount
  omega

/-- Settles O19. -/
theorem nlStep : Obligations.NlStep := by
  intro s x ht hp hu hb _
  have hctrl : inByte s s.rp.toNat = ctrlByte 0b100 x := eq_ctrlByte_of_toNat (by simpa using hb)
  have hdec := decodeOpcode_nl x (operandBytes s)
  rw [← hctrl] at hdec
  rw [stepRunsDecodedOpcode s _ _ ht hp hu hdec, exec_nl]
  exact ⟨padRow_overflow 1 (s := popHost s), FrameInv.full_of_padding_overflow, padRow_appended 1 (s := popHost s)⟩

/-- Settles O20. -/
theorem illegalStep : Obligations.IllegalStep := by
  intro s ht hp hu hb
  obtain ⟨cnt, i, hdec, hi⟩ := decodeOpcode_illegal (operandBytes s) hb
  rw [stepRunsDecodedOpcode s i _ ht hp hu hdec]
  exact illegalTakesUnrecognizedOpcode cnt (popHost s) i hi

/-! ## The steps that are no opcode (R160-R163, R166) -/

theorem le16_toNat (lo hi : Byte) : (le16 lo hi).toNat = lo.toNat + 256 * hi.toNat := by
  rw [le16, BitVec.toNat_append, ← Nat.shiftLeft_add_eq_or_of_lt lo.isLt, Nat.shiftLeft_eq]
  omega

theorem inLE16_toNat (s : State) (a : Nat) : (inLE16 s a).toNat = (inByte s a).toNat + 256 * (inByte s (a + 1)).toNat :=
  le16_toNat _ _

/-- What the dimension check rejects, in the words of R163. -/
theorem dimensionsOk_eq_false_iff (w h capacity : Nat) :
    dimensionsOk w h capacity = false ↔
      w = 0 ∨ h = 0 ∨ w * h > capacity ∨ 54 + h * ((3 * w + 3) / 4 * 4) > 0xFFFFFFFF := by
  rw [← Bool.not_eq_true, dimensionsOk_iff, outputLength, bodyLength, stride, Config.outputLimit]
  omega

/-- Settles O26: the header step's three answers, and the dimension check in R163's words. (`headerStep` is
the model's.) -/
theorem headerStep_holds : Obligations.HeaderStep := by
  intro s ht hp w h bad
  have hw : (inLE16 (popHost s) 0).toNat = w := inLE16_toNat (popHost s) 0
  have hh : (inLE16 (popHost s) 4).toNat = h := inLE16_toNat (popHost s) 4
  have hbad : dimensionsOk w h s.fbCapacity = false ↔ bad := dimensionsOk_eq_false_iff w h s.fbCapacity
  have hcases := headerStep_cases (popHost s)
  rw [hw, hh] at hcases
  rw [step_of_header ht hp]
  rcases hcases with ⟨h1, he⟩ | ⟨h1, h2, he⟩ | ⟨h1, h2, he⟩ <;> rw [popHost_inLen] at h1
  · exact ⟨fun _ => he, fun _ _ => absurd h1 (by omega), fun _ _ => absurd h1 (by omega)⟩
  · exact ⟨fun _ => absurd h1 (by omega), fun _ _ => he, fun _ hgood => absurd (hbad.1 h2) hgood⟩
  · refine ⟨fun _ => absurd h1 (by omega), fun _ hb => ?_, fun _ _ => ⟨_, he, rfl, ?_, ?_⟩⟩
    · cases (hbad.2 hb).symm.trans h2
    · rw [acceptHeader_w, BitVec.toNat_setWidth_of_le (by decide), hw]
    · rw [acceptHeader_h, BitVec.toNat_setWidth_of_le (by decide), hh]

/-- Settles O28: the premise keeps OUT_LEN's register from wrapping round. -/
theorem terminalCheck_holds : Obligations.TerminalCheck := by
  intro s ht hp hend hfits
  have hstep : step s = terminalCheck (popHost s) := by
    rw [step_of_decode ht hp]
    exact if_pos hend
  rw [hstep]
  rcases terminalCheck_cases (popHost s) with ⟨hfull, he⟩ | ⟨hpart, he⟩
  · refine ⟨fun _ => ⟨_, he, rfl, ?_⟩, fun hpart => absurd hfull hpart⟩
    exact (BitVec.toNat_ofNat _ _).trans (Nat.mod_eq_of_lt (Nat.lt_succ_of_le hfits))
  · exact ⟨fun hfull => absurd hfull hpart, fun _ => he⟩

/-- Settles O38. -/
theorem noEnabledStepChangesNothing : Obligations.NoEnabledStepChangesNothing := by
  intro s
  refine ⟨fun ht hquiet => ?_, fun a rest hmove hp => ?_⟩
  · rw [step_of_blockTurn ht, blockStep_idle (s := popHost s) hquiet]
  · rw [step_of_move hmove]
    exact sinkAnswers_other a (s := popHost s) hp

/-- Settles O39. -/
theorem startCommand_holds : Obligations.StartCommand := by
  intro s v rest hmove hbit
  rw [step_of_write hmove]
  refine ⟨fun hq => ⟨startRun (popHost s), ?_, rfl⟩, fun hb => ?_⟩
  · rw [writeReg, if_pos hbit, startCommand, popHost_phase, hq]
    rfl
  · rw [writeReg_of_busy 0 v (s := popHost s) hb]

end Sys2Proof.Machine

namespace Sys2Proof

/-! ## What a stream decodes to (R90) -/

/-- With fuel for its bytes, a stream decodes to the well-formed opcodes whose encodings laid end to end it is. -/
theorem decodeStream_eq_some_iff {fuel : Nat} {bytes : List Byte} {program : List Instr} (hfuel : bytes.length ≤ fuel) :
    decodeStream fuel bytes = some program ↔ (∀ i ∈ program, i.wf = true) ∧ program.flatMap encode = bytes := by
  constructor
  · intro h
    induction fuel generalizing bytes program with
    | zero =>
      obtain rfl := List.length_eq_zero_iff.1 (Nat.le_zero.1 hfuel)
      simp_all [decodeStream]
    | succ fuel ih =>
      match bytes with
      | [] => simp_all [decodeStream]
      | ctrl :: bytes =>
        match hdec : decode (ctrl :: bytes) with
        | .reject _ => simp [decodeStream, hdec] at h
        | .opcode i rest =>
          rw [decodeStream_succ fuel hdec, Option.map_eq_some_iff] at h
          obtain ⟨program, hrest, rfl⟩ := h
          obtain ⟨hwf, hbytes⟩ := decode_eq_opcode_iff.1 hdec
          have hlen := congrArg List.length hbytes
          rw [encode_eq_cons] at hlen
          simp only [List.length_append, List.length_cons] at hlen hfuel
          obtain ⟨hall, hflat⟩ := ih (by omega) hrest
          exact ⟨List.forall_mem_cons.2 ⟨hwf, hall⟩, by rw [List.flatMap_cons, hflat, hbytes]⟩
  · rintro ⟨hwf, rfl⟩
    exact decodeStream_flatMap_encode hwf ((length_le_length_flatMap_encode program).trans hfuel)

/-- Opcodes whose encodings begin a stream are no more than the stream's opcodes: no encoding begins another (R94). -/
theorem length_le_of_flatMap_encode_append {opcodes program : List Instr} {rest : List Byte}
    (hwf : ∀ i ∈ opcodes, i.wf = true) (hwf' : ∀ i ∈ program, i.wf = true)
    (h : opcodes.flatMap encode ++ rest = program.flatMap encode) : opcodes.length ≤ program.length := by
  induction opcodes generalizing program with
  | nil => exact Nat.zero_le _
  | cons i opcodes ih =>
    obtain ⟨hi, hopcodes⟩ := List.forall_mem_cons.1 hwf
    rw [List.flatMap_cons, List.append_assoc] at h
    have hdec := decode_encode_append hi (opcodes.flatMap encode ++ rest)
    rw [h] at hdec
    cases program with
    | nil => cases hdec
    | cons j program =>
      obtain ⟨hj, hprogram⟩ := List.forall_mem_cons.1 hwf'
      rw [List.flatMap_cons, decode_encode_append hj] at hdec
      obtain ⟨_, htail⟩ := Decoded.opcode.inj hdec
      exact Nat.succ_le_succ (ih hopcodes hprogram htail.symm)

end Sys2Proof

namespace Sys2Proof.Machine

/-! ## The steps of a run (R161, R280) -/

/-- The host's moves without reset and without loads of the input, which R270 forbids in a run. -/
def NoResetOrLoad (moves : List HostMove) : Prop := ∀ m ∈ moves, m ≠ .reset ∧ ∀ offset b, m ≠ .load offset b

/-- What a step in a busy phase can be where the host neither resets nor loads, with the number of steps that R280 counts
in it (log 23) and the state it leads to. -/
inductive RunEvent (s : State) : Nat → State → Prop
  | waits (v : Word) : RunEvent s 0 { popHost s with readData := v }
  | headerAccepted (phase : s.phase = .header) (length : 8 ≤ s.inLen.toNat) :
      RunEvent s 1 (acceptHeader (inLE16 s 0) (inLE16 s 4) (popHost s))
  | opcode (i : Instr) (rest : List Byte) (t : State) (phase : s.phase = .decode) (unread : s.rp.toNat < s.inLen.toNat)
      (fetched : decodeOpcode (inByte s s.rp.toNat) (operandBytes s) = some (i, rest))
      (completed : Completed i (popHost s) t) : RunEvent s 1 t
  | frameEnd (phase : s.phase = .decode) (exhausted : s.inLen.toNat ≤ s.rp.toNat) :
      RunEvent s 1 { popHost s with
        outLen := BitVec.ofNat 32 (outputLength s.w.toNat s.h.toNat), outPos := 0, phase := .emit }
  | accepted (phase : s.phase = .emit) (unsent : s.outPos.toNat < s.outLen.toNat) :
      RunEvent s 1 (acceptByte (offeredByte s) (popHost s))
  | fault (code : ErrCode) (pos : Word) (phase : s.phase = .header ∨ s.phase = .decode) (ne : code ≠ .ioError) :
      RunEvent s 1 (raiseFault code pos (popHost s))
  | refused (move : s.host.head? = some (.answer .refuse)) (phase : s.phase = .emit)
      (unsent : s.outPos.toNat < s.outLen.toNat) : RunEvent s 0 (raiseFault .ioError s.outPos (popHost s))

section
variable {s t : State}

/-- In HEADER and DECODE the block's turns are the counted steps (R280). -/
theorem stepCounts_of_decoding (hp : s.phase = .header ∨ s.phase = .decode) : stepCounts s = blockTurn s := by
  rcases hp with hp | hp <;> simp [stepCounts, blockEnabled, sinkRefuses, hp]

/-- In EMIT the accepted bytes are the counted steps (R280, R214; log 23). -/
theorem stepCounts_of_emit (hp : s.phase = .emit) :
    stepCounts s = decide (s.host.head? = some (.answer .accept)) := by
  simp only [stepCounts, blockEnabled, sinkRefuses, hp, sinkTurn]
  match s.host with
  | [] | .idle :: _ | .write _ _ :: _ | .read _ :: _ | .load _ _ :: _ | .reset :: _ => simp
  | .answer a :: _ => cases a <;> simp

/-- It is the block's turn where the host has no move to come but doing nothing. -/
theorem blockTurn_iff : blockTurn s = true ↔ s.host.head? = none ∨ s.host.head? = some .idle := by
  rw [blockTurn]
  match s.host with
  | [] | .idle :: _ | .write _ _ :: _ | .read _ :: _ | .load _ _ :: _ | .answer _ :: _ | .reset :: _ => simp

/-- A move that leaves the turn to no step of the block is not counted. -/
theorem stepCounts_of_move {m : HostMove} (hm : s.host.head? = some m) (hidle : m ≠ .idle)
    (haccept : m ≠ .answer .accept) : stepCounts s = false := by
  have ht : blockTurn s = false := Bool.eq_false_iff.2 fun ht => by simp [blockTurn_iff, hm, hidle] at ht
  cases hp : s.phase with
  | header => rw [stepCounts_of_decoding (.inl hp), ht]
  | decode => rw [stepCounts_of_decoding (.inr hp), ht]
  | emit => simp [stepCounts_of_emit hp, hm, haccept]
  | idle | done | fault => simp [stepCounts, blockEnabled, hp]

theorem headerStep_runEvent (hp : s.phase = .header) (h : headerStep (popHost s) = .next t) : RunEvent s 1 t := by
  rcases headerStep_cases (popHost s) with ⟨_, he⟩ | ⟨_, _, he⟩ | ⟨h1, _, he⟩ <;> rw [he] at h <;> cases h
  · exact .fault _ _ (.inl hp) (by decide)
  · exact .fault _ _ (.inl hp) (by decide)
  · exact .headerAccepted hp h1

theorem decodeStep_runEvent (hp : s.phase = .decode) (h : decodeStep (popHost s) = .next t) : RunEvent s 1 t := by
  rcases decodeStep_cases (popHost s) with ⟨hend, he⟩ | ⟨hu, i, rest, hdec, he⟩ | ⟨_, _, he⟩ <;> rw [he] at h
  · rcases terminalCheck_cases (popHost s) with ⟨_, hc⟩ | ⟨_, hc⟩ <;> rw [hc] at h <;> cases h
    · exact .frameEnd hp hend
    · exact .fault _ _ (.inr hp) (by decide)
  · rw [operandBytes_popHost] at hdec
    rcases exec_completed h with ⟨code, hmem, rfl⟩ | hdone
    · refine .fault _ _ (.inr hp) ?_
      rintro rfl
      simp [opcodeFaults] at hmem
    · exact .opcode i rest t hp hu hdec hdone
  · cases h
    exact .fault _ _ (.inr hp) (by decide)

/-- The sink's answer in a run: in EMIT a byte accepted or refused, in HEADER and DECODE nothing (R161, R214). -/
theorem sinkAnswers_runEvent {a : SinkAnswer} (hm : s.host.head? = some (.answer a)) (hb : busy s.phase = true)
    (h : sinkAnswers a (popHost s) = .next t) : RunEvent s (stepCounts s).toNat t := by
  have ht : blockTurn s ≠ true := fun ht => by simp [blockTurn_iff, hm] at ht
  by_cases hp : s.phase = .emit
  · rw [sinkAnswers_emit a (s := popHost s) hp] at h
    rw [stepCounts_of_emit hp, hm]
    rcases emitStep_cases a (popHost s) with ⟨_, he⟩ | ⟨_, _, he⟩ | ⟨hlt, _, ⟨rfl, he⟩ | ⟨rfl, he⟩⟩ <;>
      rw [he] at h <;> cases h
    · exact .refused hm hp hlt
    · exact .accepted hp hlt
  · have hcount : stepCounts s = false := by
      rw [stepCounts_of_decoding, Bool.eq_false_iff.2 ht]
      cases hq : s.phase <;> simp_all [busy]
    rw [sinkAnswers_other a (s := popHost s) hp] at h
    rw [hcount]
    cases h
    exact .waits s.readData

/-- Every step of a run is one of the events, and counted as the event says. -/
theorem step_runEvent (hb : busy s.phase = true) (hm : NoResetOrLoad s.host) (h : step s = .next t) :
    RunEvent s (stepCounts s).toNat t := by
  have hhead : ∀ m, s.host.head? = some m → m ≠ .reset ∧ ∀ offset b, m ≠ .load offset b :=
    fun m hmove => hm m (List.mem_of_head? hmove)
  rcases step_cases s with ⟨ht, he⟩ | ⟨reg, v, hmove, he⟩ | ⟨reg, hmove, he⟩ | ⟨offset, b, hmove, _⟩ | ⟨a, hmove, he⟩ |
    ⟨hmove, _⟩
  · rw [he] at h
    cases hp : s.phase with
    | header =>
      rw [stepCounts_of_decoding (.inl hp), ht]
      exact headerStep_runEvent hp (by simpa [blockStep, hp] using h)
    | decode =>
      rw [stepCounts_of_decoding (.inr hp), ht]
      exact decodeStep_runEvent hp (by simpa [blockStep, hp] using h)
    | emit =>
      have hno : s.host.head? ≠ some (.answer .accept) := fun ha => by simp [blockTurn_iff, ha] at ht
      rw [blockStep_idle (s := popHost s) (.inr hp)] at h
      rw [stepCounts_of_emit hp, decide_eq_false hno]
      cases h
      exact .waits s.readData
    | idle | done | fault => rw [hp] at hb; cases hb
  · rw [writeReg_of_busy reg v (s := popHost s) hb] at he
    cases he.symm.trans h
    rw [stepCounts_of_move hmove nofun nofun]
    exact .waits s.readData
  · cases he.symm.trans h
    rw [stepCounts_of_move hmove nofun nofun]
    exact .waits _
  · exact absurd rfl ((hhead _ hmove).2 offset b)
  · exact sinkAnswers_runEvent hmove hb (he.symm.trans h)
  · exact absurd rfl (hhead _ hmove).1

end
end Sys2Proof.Machine

namespace Sys2Proof.Machine

/-! ## How far a run has come (R24, R195, R213) -/

section
variable {s t : State}

theorem decodingStepsLeft_header (hp : s.phase = .header) : decodingStepsLeft s = 1 + (s.inLen.toNat - 8) + 1 := by
  simp [decodingStepsLeft, hp]

theorem decodingStepsLeft_decode (hp : s.phase = .decode) :
    decodingStepsLeft s = (s.inLen.toNat - s.rp.toNat) + 1 := by
  simp [decodingStepsLeft, hp]

/-- In HEADER and DECODE there is a step left, at least the terminal check (R195). -/
theorem decodingStepsLeft_pos (hp : s.phase = .header ∨ s.phase = .decode) : 1 ≤ decodingStepsLeft s := by
  rcases hp with hp | hp
  · rw [decodingStepsLeft_header hp]; omega
  · rw [decodingStepsLeft_decode hp]; omega

/-- From EMIT on no decoding is left. -/
theorem decodingStepsLeft_past (hp : s.phase = .emit ∨ s.phase = .done ∨ s.phase = .fault) :
    decodingStepsLeft s = 0 := by
  rcases hp with hp | hp | hp <;> simp [decodingStepsLeft, hp]

/-- Before EMIT no byte of the run is out (R33). -/
theorem CoreInv.outPos_eq_zero (hi : CoreInv s) (hp : s.phase = .header ∨ s.phase = .decode) : s.outPos = 0 := by
  rcases hp with hp | hp
  · obtain ⟨⟨_, _, _, _, _, hpos, _⟩, _⟩ := (phaseInv_header hp).1 hi.2
    exact hpos
  · exact ((phaseInv_decode hp).1 hi.2).2.2.1

theorem CoreInv.errCode_eq_none (hi : CoreInv s) (hb : busy s.phase = true) : s.errCode = .none := by
  cases hp : s.phase with
  | header => exact ((phaseInv_header hp).1 hi.2).2.1
  | decode => exact ((phaseInv_decode hp).1 hi.2).2.2.2.2.1
  | emit => exact ((phaseInv_emit hp).1 hi.2).2.2.2.2.1
  | idle | done | fault => rw [hp] at hb; cases hb

theorem phaseInv_fault (hp : s.phase = .fault) :
    PhaseInv s ↔ s.errCode ≠ .none ∧ s.outPos.toNat ≤ s.outLen.toNat := by
  rw [PhaseInv, hp]

/-- In EMIT and DONE, OUT_LEN is R201's size of the frame. -/
theorem CoreInv.outLen_toNat (hi : CoreInv s) (hp : s.phase = .emit ∨ s.phase = .done) :
    s.outLen.toNat = outputLength s.w.toNat s.h.toNat := by
  rcases hp with hp | hp
  · obtain ⟨_, _, ⟨_, hlen⟩, _⟩ := (phaseInv_emit hp).1 hi.2
    exact hlen
  · obtain ⟨_, ⟨_, hlen⟩, _⟩ := (phaseInv_done hp).1 hi.2
    exact hlen

theorem CoreInv.outPos_lt_outLen (hi : CoreInv s) (hp : s.phase = .emit) : s.outPos.toNat < s.outLen.toNat :=
  ((phaseInv_emit hp).1 hi.2).2.2.2.1

theorem CoreInv.outPos_eq_outLen (hi : CoreInv s) (hp : s.phase = .done) : s.outPos = s.outLen :=
  ((phaseInv_done hp).1 hi.2).2.2.1

theorem opcodeLength_pos (i : Instr) : 1 ≤ opcodeLength i := by
  cases i <;> simp [opcodeLength]

theorem acceptByte_outPos_toNat (b : Byte) (h : s.outPos.toNat < s.outLen.toNat) :
    (acceptByte b s).outPos.toNat = s.outPos.toNat + 1 := by
  rw [acceptByte_outPos]
  bv_omega

/-- A phase that accepting a byte in EMIT leads to (R214). -/
theorem acceptByte_phase_cases (b : Byte) (hp : s.phase = .emit) :
    (acceptByte b s).phase = .emit ∨ (acceptByte b s).phase = .done := by
  rw [acceptByte_phase]
  split_ifs
  · exact .inr rfl
  · exact .inl hp

end

/-- The whole output has OUT_LEN bytes (R201, R213). -/
theorem bmpBytes_length (w h : Nat) (fb : Nat → Pixel) : (bmpBytes w h fb).length = outputLength w h := by
  rw [bmpBytes, List.length_append, bmpHeader_length, flatMap_paddedRow_length w fb fun k => h - 1 - k]
  rfl

theorem outputBytes_length (s : State) : (outputBytes s).length = outputLength s.w.toNat s.h.toNat :=
  bmpBytes_length _ _ _

theorem outputBytes_getElem? {s : State} (h : s.outPos.toNat < outputLength s.w.toNat s.h.toNat) :
    (outputBytes s)[s.outPos.toNat]? = some (offeredByte s) := bmpBytes_getElem? (fbRead s) h

/-- What is left of the output at OUT_POS is the offered byte and what is left after it (R213, R214). -/
theorem outputBytes_drop {s : State} (h : s.outPos.toNat < outputLength s.w.toNat s.h.toNat) :
    (outputBytes s).drop s.outPos.toNat = offeredByte s :: (outputBytes s).drop (s.outPos.toNat + 1) := by
  obtain ⟨hlt, hbyte⟩ := List.getElem?_eq_some_iff.1 (outputBytes_getElem? h)
  rw [List.drop_eq_getElem_cons hlt, hbyte]

/-! ## Decoding and emitting by themselves (R195) -/

/-- Each event moves the run on: what it counts is taken off the steps left, or shows in OUT_POS (R195). -/
theorem RunEvent.budget {s t : State} {k : Nat} (he : RunEvent s k t) (hi : CoreInv s) :
    k + decodingStepsLeft t + s.outPos.toNat ≤ decodingStepsLeft s + t.outPos.toNat ∧
      s.outPos.toNat ≤ t.outPos.toNat := by
  cases he with
  | waits v => exact ⟨by rw [Nat.zero_add]; exact le_rfl, le_rfl⟩
  | headerAccepted phase length =>
    rw [decodingStepsLeft_header phase, decodingStepsLeft_decode rfl]
    simp
    omega
  | opcode i rest t phase unread _ completed =>
    have hrp := completed.rp_toNat unread
    have hlen := opcodeLength_pos i
    have hpos : t.outPos = s.outPos := by rw [completed.frame]; rfl
    rw [decodingStepsLeft_decode phase, decodingStepsLeft_decode (completed.phase_eq.trans phase), hpos,
      completed.inLen_eq]
    simp only [popHost_rp, popHost_inLen] at *
    omega
  | frameEnd phase _ =>
    have := decodingStepsLeft_pos (.inr phase)
    rw [hi.outPos_eq_zero (.inr phase), decodingStepsLeft_past (.inl rfl)]
    simp
    omega
  | accepted phase unsent =>
    have hpos := acceptByte_outPos_toNat (s := popHost s) (offeredByte s) unsent
    rw [popHost_outPos] at hpos
    have hleft := decodingStepsLeft_past
      ((acceptByte_phase_cases (s := popHost s) (offeredByte s) phase).imp_right .inl)
    omega
  | fault code pos phase _ =>
    have := decodingStepsLeft_pos phase
    rw [decodingStepsLeft_past (s := raiseFault code pos (popHost s)) (.inr (.inr rfl))]
    simp
    omega
  | refused _ phase _ =>
    rw [decodingStepsLeft_past (s := raiseFault _ _ (popHost s)) (.inr (.inr rfl))]
    simp

/-- With no host move to come, decoding has left DECODE once its steps are used up (R195). -/
theorem run_leaves_decode {s : State} (n : Nat) (hi : CoreInv s) (hp : s.phase = .decode) (hh : s.host = [])
    (hn : decodingStepsLeft s ≤ n) :
    ∃ k t, k ≤ n ∧ Host.Core.run Sys2Proof.core k s = .next t ∧ (t.phase = .emit ∨ t.phase = .fault) := by
  have hpos := decodingStepsLeft_pos (.inr hp)
  induction n generalizing s with
  | zero => omega
  | succ n ih =>
    have ht : blockTurn s = true := by simp [blockTurn, hh]
    obtain ⟨t, hstep⟩ := blockStep_answers (s := popHost s) hi
    rw [← step_of_blockTurn ht] at hstep
    have hrun : ∀ k, Host.Core.run Sys2Proof.core (k + 1) s = Host.Core.run Sys2Proof.core k t :=
      fun k => core_run_succ k hstep
    have hevent := step_runEvent (by rw [hp]; rfl) (by rw [hh]; exact List.forall_mem_nil _) hstep
    rw [stepCounts_of_decoding (.inr hp), ht, Bool.toNat_true] at hevent
    have hbudget := (hevent.budget hi).1
    cases hevent with
    | headerAccepted phase | accepted phase => cases hp.symm.trans phase
    | opcode i rest _ _ _ _ completed =>
      have hit : CoreInv t := everyStepKeepsTheInvariant s t hi hstep
      have hpt : t.phase = .decode := completed.phase_eq.trans hp
      have hht : t.host = [] := by rw [completed.frame]; simp [hh]
      rw [hi.outPos_eq_zero (.inr hp), hit.outPos_eq_zero (.inr hpt)] at hbudget
      obtain ⟨k, u, hk, hu, hend⟩ := ih hit hpt hht (by omega) (decodingStepsLeft_pos (.inr hpt))
      exact ⟨k + 1, u, by omega, (hrun k).trans hu, hend⟩
    | frameEnd => exact ⟨1, _, by omega, hrun 0, .inl rfl⟩
    | fault => exact ⟨1, _, by omega, hrun 0, .inr rfl⟩

/-- Settles O58. -/
theorem decodingEnds : Obligations.DecodingEnds := fun _ hi hp hh =>
  run_leaves_decode _ hi hp hh (decodingStepsLeft_decode hp).le

/-- Under the invariant, accepting the offered byte in EMIT is a step (R214). -/
theorem step_of_accept {s : State} {rest : List HostMove} (hi : CoreInv s) (hp : s.phase = .emit)
    (hh : s.host = .answer .accept :: rest) : step s = .next (acceptByte (offeredByte s) (popHost s)) := by
  obtain ⟨t, he⟩ := sinkAnswers_answers (s := popHost s) .accept hi
  rw [step_of_move hh]
  refine he.trans ?_
  rw [sinkAnswers_emit .accept (s := popHost s) hp] at he
  rcases emitStep_cases .accept (popHost s) with ⟨_, hx⟩ | ⟨_, _, hx⟩ | ⟨_, _, ⟨ha, _⟩ | ⟨_, hx⟩⟩
  · cases hx.symm.trans he
  · cases hx.symm.trans he
  · cases ha
  · exact he.symm.trans hx

/-- A state in DONE with every byte out and no host move to come, written as the end of a run. -/
theorem eq_finished {s : State} (hp : s.phase = .done) (hpos : s.outPos = s.outLen) (hh : s.host = []) :
    s = { s with phase := .done, outPos := s.outLen, host := [] } := by
  cases s
  simp_all

/-- The answers of a sink that accepts every byte run the machine to DONE, with the rest of the output in the sink. -/
theorem run_accepting {s : State} (n : Nat) (hi : CoreInv s) (hp : s.phase = .emit ∨ s.phase = .done)
    (hn : s.outLen.toNat - s.outPos.toNat = n) (hh : s.host = List.replicate n (.answer .accept)) :
    Host.Core.run Sys2Proof.core n s =
      .next { s with
        phase := .done, outPos := s.outLen, host := []
        out := s.out ++ (outputBytes s).drop s.outPos.toNat } := by
  induction n generalizing s with
  | zero =>
    have hdone : s.phase = .done := hp.resolve_left fun he => by
      have := hi.outPos_lt_outLen he
      omega
    have hpos := hi.outPos_eq_outLen hdone
    have hnone : (outputBytes s).drop s.outPos.toNat = [] := by
      rw [List.drop_eq_nil_iff, outputBytes_length, hpos, hi.outLen_toNat hp]
    rw [hnone, List.append_nil]
    exact congrArg Host.Outcome.next (eq_finished hdone hpos hh)
  | succ n ih =>
    have hemit : s.phase = .emit := hp.resolve_right fun hd => by
      rw [hi.outPos_eq_outLen hd] at hn
      omega
    have hlt := hi.outPos_lt_outLen hemit
    have hstep := step_of_accept hi hemit hh
    have hpos := acceptByte_outPos_toNat (s := popHost s) (offeredByte s) hlt
    rw [popHost_outPos] at hpos
    have hrest := ih (everyStepKeepsTheInvariant s _ hi hstep)
      (acceptByte_phase_cases (s := popHost s) (offeredByte s) hemit)
      (by rw [hpos]; show s.outLen.toNat - (s.outPos.toNat + 1) = n; omega) (by simp [hh])
    rw [core_run_succ n hstep, hrest, hpos, outputBytes_drop (hi.outLen_toNat hp ▸ hlt), ← List.singleton_append,
      ← List.append_assoc]
    rfl

/-- Settles O59. -/
theorem acceptingSinkGetsTheOutput : Obligations.AcceptingSinkGetsTheOutput := fun _ hi hp hh =>
  run_accepting _ hi (.inl hp) rfl hh

end Sys2Proof.Machine

namespace Sys2Proof.Machine

/-! ## Opcodes read from the input's stream (R68, R90) -/

/-- `opcodes` are well-formed, and laid end to end they are the input's bytes from offset 8 up to `a` (R68, R90). -/
def StreamReads (s : State) (a : Nat) (opcodes : List Instr) : Prop :=
  (∀ i ∈ opcodes, i.wf = true) ∧ opcodes.flatMap encode = memRead s 8 (a - 8)

/-- The opcodes of the input are those that read it to its end. -/
theorem streamOpcodes_eq_some_iff {s : State} {program : List Instr} :
    streamOpcodes s = some program ↔ StreamReads s s.inLen.toNat program :=
  decodeStream_eq_some_iff (memRead_length _ _ _).le

theorem StreamReads.length_le {s : State} {a : Nat} {opcodes : List Instr} (h : StreamReads s a opcodes) :
    opcodes.length ≤ a - 8 := by
  have hlen := length_le_length_flatMap_encode opcodes
  rwa [h.2, memRead_length] at hlen

/-- Opcodes read up to some offset are no more than those read up to a later one (R90). -/
theorem StreamReads.length_le_of_le {s : State} {a b : Nat} {opcodes program : List Instr} (h : StreamReads s a opcodes)
    (hp : StreamReads s b program) (hab : a ≤ b) : opcodes.length ≤ program.length := by
  refine length_le_of_flatMap_encode_append (rest := memRead s (8 + (a - 8)) (b - 8 - (a - 8))) h.1 hp.1 ?_
  rw [h.2, hp.2, ← memRead_append]
  congr 1
  omega

/-- A fetched opcode's encoding is a read of the input at RP (R62, R90). -/
theorem encode_eq_memRead {s : State} {i : Instr} {rest : List Byte} (hu : s.rp.toNat < s.inLen.toNat)
    (hdec : decodeOpcode (inByte s s.rp.toNat) (operandBytes s) = some (i, rest)) :
    i.wf = true ∧ encode i = memRead s s.rp.toNat (opcodeLength i) := by
  obtain ⟨hwf, _, hbytes⟩ := fetchedOpcodeIsTheInputsBytes s i rest hu hdec
  refine ⟨hwf, List.ext_getElem? fun k => ?_⟩
  rw [memRead_getElem?]
  split_ifs with hk
  · exact hbytes k hk
  · exact List.getElem?_eq_none (by rw [encode_length hwf]; omega)

/-- A fetched opcode continues what was read up to RP. -/
theorem StreamReads.fetch {s₀ s : State} {i : Instr} {rest : List Byte} {opcodes : List Instr}
    (h : StreamReads s₀ s.rp.toNat opcodes) (hinput : s.input = s₀.input) (h8 : 8 ≤ s.rp.toNat)
    (hu : s.rp.toNat < s.inLen.toNat)
    (hdec : decodeOpcode (inByte s s.rp.toNat) (operandBytes s) = some (i, rest)) :
    StreamReads s₀ (s.rp.toNat + opcodeLength i) (opcodes ++ [i]) := by
  obtain ⟨hwf, hbytes⟩ := encode_eq_memRead hu hdec
  refine ⟨fun j hj => ?_, ?_⟩
  · rcases List.mem_append.1 hj with hj | hj
    · exact h.1 j hj
    · rwa [List.mem_singleton.1 hj]
  · rw [List.flatMap_append, h.2, List.flatMap_singleton, hbytes, memRead_congr hinput,
      show s.rp.toNat + opcodeLength i - 8 = s.rp.toNat - 8 + opcodeLength i by omega, memRead_append]
    congr 2
    omega

/-- The steps counted up to `t` in a run from HEADER in `s₀`, by the opcodes of the stream (R281). -/
def StepsCounted (s₀ t : State) (c : Nat) : Prop :=
  match t.phase with
  | .idle => False
  | .header => c = 0
  | .decode => ∃ opcodes, StreamReads s₀ t.rp.toNat opcodes ∧ c = 1 + opcodes.length
  | .emit => ∃ program, streamOpcodes s₀ = some program ∧ c = 1 + program.length + 1 + t.outPos.toNat
  | .done => ∃ program, streamOpcodes s₀ = some program ∧ c = 1 + program.length + 1 + t.outPos.toNat
  | .fault => ∀ program, streamOpcodes s₀ = some program → c < wholeRunSteps program.length t

/-! ## What every step of a run keeps (R195, R281) -/

/-- What holds of a run from `s₀` that has come to `t` with `c` counted steps. -/
structure RunInv (s₀ t : State) (c : Nat) : Prop where
  core : CoreInv t
  started : t.phase ≠ .idle
  host : t.host <:+ s₀.host
  input : t.input = s₀.input
  inLen : t.inLen = s₀.inLen
  outPos_le : s₀.outPos.toNat ≤ t.outPos.toNat
  budget : c + decodingStepsLeft t + s₀.outPos.toNat ≤ decodingStepsLeft s₀ + t.outPos.toNat
  out : t.out = s₀.out ++ ((outputBytes t).take t.outPos.toNat).drop s₀.outPos.toNat
  refused : t.errCode = .ioError → .answer .refuse ∈ s₀.host
  unsent : t.phase = .fault → t.outPos.toNat < outputLength t.w.toNat t.h.toNat
  counted : s₀.phase = .header → StepsCounted s₀ t c

/-- A run that has taken no step. -/
theorem runInv_start {s : State} (hi : CoreInv s) (hb : busy s.phase = true) : RunInv s s 0 where
  core := hi
  started hp := by rw [hp] at hb; cases hb
  host := List.suffix_refl _
  input := rfl
  inLen := rfl
  outPos_le := le_rfl
  budget := by omega
  out := by rw [List.drop_eq_nil_of_le (List.length_take_le _ _), List.append_nil]
  refused h := by rw [hi.errCode_eq_none hb] at h; cases h
  unsent hp := by rw [hp] at hb; cases hb
  counted hp := by rw [StepsCounted, hp]

section
variable {s₀ s t : State} {c k : Nat}

theorem RunEvent.host_eq (he : RunEvent s k t) : t.host = s.host.tail := by
  cases he with
  | opcode _ _ _ _ _ _ completed => rw [completed.frame]; rfl
  | waits | headerAccepted | frameEnd | accepted | fault | refused => rfl

theorem RunEvent.input_eq (he : RunEvent s k t) : t.input = s.input := by
  cases he with
  | opcode _ _ _ _ _ _ completed => exact completed.input_eq
  | waits | headerAccepted | frameEnd | accepted | fault | refused => rfl

theorem RunEvent.inLen_eq (he : RunEvent s k t) : t.inLen = s.inLen := by
  cases he with
  | opcode _ _ _ _ _ _ completed => exact completed.inLen_eq
  | waits | headerAccepted | frameEnd | accepted | fault | refused => rfl

/-- Only reset leads to IDLE (R23). -/
theorem RunEvent.phase_ne_idle (he : RunEvent s k t) (hb : busy s.phase = true) : t.phase ≠ .idle := by
  have hs : s.phase ≠ .idle := fun hp => by rw [hp] at hb; cases hb
  cases he with
  | waits => exact hs
  | headerAccepted | frameEnd | fault | refused => nofun
  | opcode _ _ _ _ _ _ completed => exact completed.phase_eq.trans_ne hs
  | accepted phase =>
    rcases acceptByte_phase_cases (s := popHost s) (offeredByte s) phase with hq | hq <;> rw [hq] <;> nofun

/-- Only a refused byte gives IoError, and its answer is the host's next move (R230, R235). -/
theorem RunEvent.refused_of_ioError (he : RunEvent s k t) (hi : CoreInv s) (hb : busy s.phase = true)
    (h : t.errCode = .ioError) : .answer .refuse ∈ s.host := by
  have hnone := hi.errCode_eq_none hb
  cases he with
  | waits | headerAccepted | frameEnd | accepted => cases hnone.symm.trans h
  | opcode _ _ _ _ _ _ completed =>
    rw [completed.frame] at h
    cases hnone.symm.trans h
  | fault code _ _ ne => exact absurd h ne
  | refused move => exact List.mem_of_head? move

/-- A run that faults has not accepted the whole output (R214). -/
theorem RunEvent.unsent (he : RunEvent s k t) (hi : CoreInv s) (hb : busy s.phase = true) (hp : t.phase = .fault) :
    t.outPos.toNat < outputLength t.w.toNat t.h.toNat := by
  cases he with
  | waits => rw [show s.phase = .fault from hp] at hb; cases hb
  | headerAccepted | frameEnd => cases hp
  | opcode _ _ _ _ _ _ completed =>
    rw [show s.phase = .fault from completed.phase_eq.symm.trans hp] at hb
    cases hb
  | accepted phase =>
    rcases acceptByte_phase_cases (s := popHost s) (offeredByte s) phase with hq | hq <;> cases hq.symm.trans hp
  | fault code pos phase =>
    show s.outPos.toNat < _
    rw [hi.outPos_eq_zero phase, outputLength]
    simp
  | refused _ phase unsent => exact unsent.trans_eq (hi.outLen_toNat (.inl phase))

/-- The sink's bytes go on with the output's (R195, R214). -/
theorem RunInv.out_step (h : RunInv s₀ s c) (he : RunEvent s k t) (ht : CoreInv t) :
    t.out = s₀.out ++ ((outputBytes t).take t.outPos.toNat).drop s₀.outPos.toNat := by
  have before : s.outPos = 0 → s.out = s₀.out := fun h0 => by
    simpa [h0] using h.out
  have unsent : t.outPos = 0 → t.out = s.out → s.outPos = 0 →
      t.out = s₀.out ++ ((outputBytes t).take t.outPos.toNat).drop s₀.outPos.toNat := fun h0 hout hs => by
    simp [h0, hout, before hs]
  cases he with
  | waits | fault | refused => exact h.out
  | headerAccepted phase =>
    have hs := h.core.outPos_eq_zero (.inl phase)
    exact unsent hs rfl hs
  | opcode _ _ _ phase _ _ completed =>
    exact unsent (ht.outPos_eq_zero (.inr (completed.phase_eq.trans phase))) (by rw [completed.frame]; rfl)
      (h.core.outPos_eq_zero (.inr phase))
  | frameEnd phase => exact unsent rfl rfl (h.core.outPos_eq_zero (.inr phase))
  | accepted phase hlt =>
    have hlen := h.core.outLen_toNat (.inl phase) ▸ hlt
    have hpos := acceptByte_outPos_toNat (s := popHost s) (offeredByte s) hlt
    rw [hpos]
    show s.out ++ [offeredByte s] = s₀.out ++ ((outputBytes s).take (s.outPos.toNat + 1)).drop s₀.outPos.toNat
    rw [List.take_add_one, outputBytes_getElem? hlen, Option.toList_some, List.drop_append_of_le_length, h.out,
      List.append_assoc]
    rw [List.length_take, outputBytes_length]
    have := h.outPos_le
    omega

theorem stepsCounted_header (hp : t.phase = .header) : StepsCounted s₀ t c ↔ c = 0 := by
  rw [StepsCounted, hp]

theorem stepsCounted_decode (hp : t.phase = .decode) :
    StepsCounted s₀ t c ↔ ∃ opcodes, StreamReads s₀ t.rp.toNat opcodes ∧ c = 1 + opcodes.length := by
  rw [StepsCounted, hp]

theorem stepsCounted_sent (hp : t.phase = .emit ∨ t.phase = .done) :
    StepsCounted s₀ t c ↔
      ∃ program, streamOpcodes s₀ = some program ∧ c = 1 + program.length + 1 + t.outPos.toNat := by
  rcases hp with hp | hp <;> rw [StepsCounted, hp]

theorem stepsCounted_fault (hp : t.phase = .fault) :
    StepsCounted s₀ t c ↔ ∀ program, streamOpcodes s₀ = some program → c < wholeRunSteps program.length t := by
  rw [StepsCounted, hp]

/-- A fault before EMIT comes within the stream's opcodes: it leaves out at least the output (R281). -/
theorem StepsCounted.fault_decoding {code : ErrCode} {pos : Word} (h : RunInv s₀ s c) (hc : StepsCounted s₀ s c)
    (hp : s.phase = .header ∨ s.phase = .decode) : StepsCounted s₀ (raiseFault code pos (popHost s)) (c + 1) := by
  refine (stepsCounted_fault rfl).2 fun program hprogram => ?_
  unfold wholeRunSteps outputLength
  rcases hp with hp | hp
  · have := (stepsCounted_header hp).1 hc
    omega
  · obtain ⟨opcodes, hread, hcount⟩ := (stepsCounted_decode hp).1 hc
    have hle := h.core.rp_le_inLen (by rw [hp]; rfl)
    rw [h.inLen] at hle
    have := hread.length_le_of_le (streamOpcodes_eq_some_iff.1 hprogram) hle
    omega

/-- Each event counts its step: the header, one opcode of the stream, the terminal check, one byte (R280, R281). -/
theorem StepsCounted.step (h : RunInv s₀ s c) (hc : StepsCounted s₀ s c) (he : RunEvent s k t) :
    StepsCounted s₀ t (c + k) := by
  cases he with
  | waits => exact hc
  | headerAccepted phase =>
    refine (stepsCounted_decode rfl).2 ⟨[], ⟨List.forall_mem_nil _, rfl⟩, ?_⟩
    rw [(stepsCounted_header phase).1 hc]
    rfl
  | opcode i rest t phase unread fetched completed =>
    obtain ⟨opcodes, hread, hcount⟩ := (stepsCounted_decode phase).1 hc
    obtain ⟨⟨_, _, _, h8⟩, _⟩ := (phaseInv_decode phase).1 h.core.2
    have hrp : t.rp.toNat = s.rp.toNat + opcodeLength i := (completed.rp_toNat unread).1
    refine (stepsCounted_decode (completed.phase_eq.trans phase)).2 ⟨opcodes ++ [i], ?_, ?_⟩
    · rw [hrp]
      exact hread.fetch h.input h8 unread fetched
    · rw [hcount, List.length_append, List.length_singleton, Nat.add_assoc]
  | frameEnd phase exhausted =>
    obtain ⟨opcodes, hread, hcount⟩ := (stepsCounted_decode phase).1 hc
    have hend : s.rp.toNat = s₀.inLen.toNat := by
      have := h.core.rp_le_inLen (by rw [phase]; rfl)
      rw [h.inLen] at this exhausted
      omega
    rw [hend] at hread
    exact (stepsCounted_sent (.inl rfl)).2 ⟨opcodes, streamOpcodes_eq_some_iff.2 hread, by simp [hcount]⟩
  | accepted phase unsent =>
    obtain ⟨program, hprogram, hcount⟩ := (stepsCounted_sent (.inl phase)).1 hc
    refine (stepsCounted_sent (acceptByte_phase_cases (s := popHost s) _ phase)).2 ⟨program, hprogram, ?_⟩
    rw [acceptByte_outPos_toNat (s := popHost s) _ unsent, hcount]
    rfl
  | fault code pos phase => exact hc.fault_decoding h phase
  | refused _ phase unsent =>
    obtain ⟨program, hprogram, hcount⟩ := (stepsCounted_sent (.inl phase)).1 hc
    refine (stepsCounted_fault rfl).2 fun program' hprogram' => ?_
    obtain rfl := Option.some.inj (hprogram.symm.trans hprogram')
    have hlen := h.core.outLen_toNat (.inl phase)
    show c + 0 < 1 + program.length + 1 + outputLength s.w.toNat s.h.toNat
    omega

/-- Every step of a run keeps the run's invariant. -/
theorem RunInv.step (h : RunInv s₀ s c) (hm : NoResetOrLoad s₀.host) (hb : busy s.phase = true)
    (hstep : step s = .next t) : RunInv s₀ t (c + (stepCounts s).toNat) := by
  have he := step_runEvent hb (fun m hmem => hm m (h.host.subset hmem)) hstep
  have ht := everyStepKeepsTheInvariant s t h.core hstep
  obtain ⟨hbudget, hpos⟩ := he.budget h.core
  exact {
    core := ht
    started := he.phase_ne_idle hb
    host := by rw [he.host_eq]; exact (List.tail_suffix _).trans h.host
    input := he.input_eq.trans h.input
    inLen := he.inLen_eq.trans h.inLen
    outPos_le := h.outPos_le.trans hpos
    budget := by have := h.budget; omega
    out := h.out_step he ht
    refused := fun hcode => h.host.subset (he.refused_of_ioError h.core hb hcode)
    unsent := he.unsent h.core hb
    counted := fun hp => (h.counted hp).step h he }

/-- A run goes on without stopping, for any number of steps, and keeps its invariant. -/
theorem RunInv.run (h : RunInv s₀ s c) (hm : NoResetOrLoad s₀.host) (n : Nat) :
    ∃ t, runState n s = .next t ∧ RunInv s₀ t (c + runBlockSteps n s) := by
  induction n generalizing s c with
  | zero => exact ⟨s, rfl, h⟩
  | succ n ih =>
    cases hb : busy s.phase with
    | false => exact ⟨s, runState_ended _ hb, by rwa [runBlockSteps_ended _ hb]⟩
    | true =>
      rcases step_answers_or_loads h.core with ⟨u, hstep⟩ | ⟨offset, b, hmove, _⟩
      · obtain ⟨t, ht, hinv⟩ := ih (h.step hm hb hstep)
        refine ⟨t, (runState_succ n hb hstep).trans ht, ?_⟩
        rwa [runBlockSteps_succ n hb hstep, ← Nat.add_assoc]
      · exact absurd rfl ((hm _ (h.host.subset (List.mem_of_head? hmove))).2 offset b)

/-! ## What the invariant of a run gives (R195, R281) -/

/-- A run that is still busy has taken fewer steps than the bound (R195). -/
theorem RunInv.lt_of_busy (h : RunInv s₀ t c) (hb : busy t.phase = true) :
    c < decodingStepsLeft s₀ + (t.outLen.toNat - s₀.outPos.toNat) := by
  have hbudget := h.budget
  have hle := h.outPos_le
  have early : t.phase = .header ∨ t.phase = .decode →
      c < decodingStepsLeft s₀ + (t.outLen.toNat - s₀.outPos.toNat) := fun hp => by
    have hleft := decodingStepsLeft_pos hp
    have hzero : t.outPos.toNat = 0 := by rw [h.core.outPos_eq_zero hp]; rfl
    omega
  cases hp : t.phase with
  | header => exact early (.inl hp)
  | decode => exact early (.inr hp)
  | emit =>
    have := h.core.outPos_lt_outLen hp
    omega
  | idle | done | fault => rw [hp] at hb; cases hb

/-- A run ends in DONE or in FAULT (R195). -/
theorem RunInv.done_or_fault (h : RunInv s₀ t c) (hb : busy t.phase = false) : t.phase = .done ∨ t.phase = .fault := by
  have := h.started
  cases hp : t.phase <;> simp_all [busy]

/-- The two ways a run ends (R195). -/
theorem RunInv.runEnded (h : RunInv s₀ t c) (hb : busy t.phase = false) : RunEnded s₀.host s₀ t := by
  rcases h.done_or_fault hb with hp | hp
  · have hpos := h.core.outPos_eq_outLen hp
    refine .inl ⟨hp, hpos, ?_⟩
    rw [h.out, List.take_of_length_le]
    rw [outputBytes_length, hpos, h.core.outLen_toNat (.inr hp)]
  · exact .inr ⟨hp, ((phaseInv_fault hp).1 h.core.2).1, h.refused⟩

/-- A run that has ended took no more steps than the bound (R195). -/
theorem RunInv.le_of_ended (h : RunInv s₀ t c) (hb : busy t.phase = false) :
    c ≤ decodingStepsLeft s₀ + (t.outLen.toNat - s₀.outPos.toNat) := by
  have hbudget := h.budget
  have hle := h.outPos_le
  have hsent : t.outPos.toNat ≤ t.outLen.toNat := by
    rcases h.done_or_fault hb with hp | hp
    · rw [h.core.outPos_eq_outLen hp]
    · exact ((phaseInv_fault hp).1 h.core.2).2
  omega

/-- A run that faulted took fewer steps than one that emits the whole frame (R195, R281). -/
theorem RunInv.lt_of_fault (h : RunInv s₀ t c) (hp : t.phase = .fault) :
    c < decodingStepsLeft s₀ + (outputLength t.w.toNat t.h.toNat - s₀.outPos.toNat) := by
  have hbudget := h.budget
  have hle := h.outPos_le
  have hunsent := h.unsent hp
  omega

/-- A run from HEADER to DONE takes exactly the steps of R281, one to FAULT fewer. -/
theorem RunInv.wholeRunSteps (h : RunInv s₀ t c) (hp : s₀.phase = .header) :
    (t.phase = .done → ∃ program, streamOpcodes s₀ = some program ∧ c = wholeRunSteps program.length t) ∧
    (t.phase = .fault → ∀ program, streamOpcodes s₀ = some program → c < wholeRunSteps program.length t) := by
  have hcounted := h.counted hp
  refine ⟨fun hdone => ?_, fun hfault => (stepsCounted_fault hfault).1 hcounted⟩
  obtain ⟨program, hprogram, hcount⟩ := (stepsCounted_sent (.inr hdone)).1 hcounted
  refine ⟨program, hprogram, ?_⟩
  rw [hcount, h.core.outPos_eq_outLen hdone, h.core.outLen_toNat (.inr hdone), Machine.wholeRunSteps]

end

/-! ## The end is within reach (R195, R271) -/

/-- The move that lets a busy block work: an accepting answer in EMIT, and no move before it. -/
def workingMove (s : State) : HostMove := if s.phase = .emit then .answer .accept else .idle

theorem workingMove_cases (s : State) : workingMove s = .idle ∨ workingMove s = .answer .accept := by
  unfold workingMove
  split_ifs <;> simp

/-- The working move's step is counted, whatever moves come after it. -/
theorem stepCounts_workingMove {s : State} (hb : busy s.phase = true) (moves : List HostMove) :
    stepCounts { s with host := workingMove s :: moves } = true := by
  unfold workingMove
  cases hp : s.phase with
  | header => exact stepCounts_of_decoding (.inl rfl)
  | decode => exact stepCounts_of_decoding (.inr rfl)
  | emit => exact stepCounts_of_emit rfl
  | idle | done | fault => rw [hp] at hb; cases hb

/-- Under the invariant the working move is a step, and the moves after it have no part in it. -/
theorem step_workingMove {s : State} (hi : CoreInv s) :
    ∃ u, CoreInv u ∧ ∀ moves, step { s with host := workingMove s :: moves } = .next { u with host := moves } := by
  have hstep : ∃ u : State, ∀ moves,
      step { s with host := workingMove s :: moves } = .next { u with host := moves } := by
    unfold workingMove
    split_ifs
    · obtain ⟨u, hu⟩ := sinkAnswers_answers .accept hi
      exact ⟨u, fun moves => (step_withHost_cons _ moves s).trans (sinkAnswers_withHost moves hu)⟩
    · obtain ⟨u, hu⟩ := blockStep_answers hi
      exact ⟨u, fun moves => (step_withHost_cons _ moves s).trans (blockStep_withHost moves hu)⟩
  obtain ⟨u, hu⟩ := hstep
  have hkept : CoreInv { u with host := [] } :=
    everyStepKeepsTheInvariant { s with host := [workingMove s] } _ hi (hu [])
  exact ⟨u, hkept, hu⟩

/-- Working moves run the machine for `n` counted steps, or to its end if that comes first. -/
theorem exists_working_moves (n : Nat) {s : State} (hi : CoreInv s) :
    ∃ (moves : List HostMove) (t : State), (∀ m ∈ moves, m = .idle ∨ m = .answer .accept) ∧
      Host.Core.run Sys2Proof.core moves.length { s with host := moves } = .next t ∧
      runState n { s with host := moves } = .next t ∧ runBlockSteps n { s with host := moves } = moves.length ∧
      (busy t.phase = true → moves.length = n) := by
  induction n generalizing s with
  | zero => exact ⟨[], { s with host := [] }, List.forall_mem_nil _, rfl, rfl, rfl, fun _ => rfl⟩
  | succ n ih =>
    cases hb : busy s.phase with
    | false =>
      exact ⟨[], { s with host := [] }, List.forall_mem_nil _, rfl, runState_ended _ hb, runBlockSteps_ended _ hb,
        fun ht => by cases hb.symm.trans ht⟩
    | true =>
      obtain ⟨u, hu, hwork⟩ := step_workingMove hi
      obtain ⟨moves, t, hallowed, hrun, hstate, hcount, hlen⟩ := ih hu
      have hstep := hwork moves
      refine ⟨workingMove s :: moves, t, List.forall_mem_cons.2 ⟨workingMove_cases s, hallowed⟩,
        (core_run_succ _ hstep).trans hrun, (runState_succ n (by exact hb) hstep).trans hstate, ?_,
        fun ht => congrArg Nat.succ (hlen ht)⟩
      rw [runBlockSteps_succ n (by exact hb) hstep, stepCounts_workingMove hb, hcount, List.length_cons, Nat.add_comm]
      rfl

/-- Working moves end the run, within the bound on its steps: were it still busy after more of them than any bound, it
would have counted them all. -/
theorem exists_moves_to_end {s : State} (hi : CoreInv s) (hb : busy s.phase = true) :
    ∃ (moves : List HostMove) (t : State), (∀ m ∈ moves, m = .idle ∨ m = .answer .accept) ∧
      moves.length ≤ decodingStepsLeft s + (t.outLen.toNat - s.outPos.toNat) ∧
      Host.Core.run Sys2Proof.core moves.length { s with host := moves } = .next t ∧ RunEnded moves s t := by
  obtain ⟨moves, t, hallowed, hrun, hstate, hcount, hlen⟩ := exists_working_moves (decodingStepsLeft s + 2 ^ 32) hi
  have hm : NoResetOrLoad moves := fun m hmem => by
    rcases hallowed m hmem with rfl | rfl <;> simp
  have hstart : RunInv { s with host := moves } { s with host := moves } 0 := runInv_start hi hb
  obtain ⟨t', ht', hinv⟩ := hstart.run hm (decodingStepsLeft s + 2 ^ 32)
  obtain rfl : t = t' := Host.Outcome.next.inj (hstate.symm.trans ht')
  rw [Nat.zero_add, hcount] at hinv
  have hended : busy t.phase = false := by
    refine Bool.eq_false_iff.2 fun ht => ?_
    have hlt : moves.length < decodingStepsLeft s + (t.outLen.toNat - s.outPos.toNat) := hinv.lt_of_busy ht
    have := t.outLen.isLt
    have := hlen ht
    omega
  exact ⟨moves, t, hallowed, hinv.le_of_ended hended, hrun, hinv.runEnded hended⟩

/-- Settles O60: the invariant of a run holds wherever the run has come, and working moves bring it to its end. -/
theorem everyRunEnds : Obligations.EveryRunEnds := by
  intro s hi hb
  refine ⟨fun hm n => ?_, exists_moves_to_end hi hb⟩
  obtain ⟨t, ht, hinv⟩ := (runInv_start hi hb).run hm n
  rw [Nat.zero_add] at hinv
  refine ⟨t, ht, hinv.lt_of_busy, fun hended => ⟨hinv.runEnded hended, hinv.le_of_ended hended, hinv.lt_of_fault,
    fun hp => ⟨fun program hprogram => ?_, hinv.wholeRunSteps hp⟩⟩⟩
  exact (streamOpcodes_eq_some_iff.1 hprogram).length_le

end Sys2Proof.Machine

/-! # The BMP serializer (spec/43_bmp_serializer.md)

The sizes of the output, its 54 header bytes, the bytes of its rows by place (`bmpBytes_row_getElem?`), and the emit step
that offers them one by one (`step_of_answer`). -/

namespace Sys2Proof.Machine

/-! ## Sizes and bytes of the whole output (R201, R213, R215) -/

/-- Settles O29: the padding rounds 3W up to a multiple of 4. -/
theorem strideLaws : Obligations.StrideLaws := by
  refine ⟨fun w => ⟨rfl, stride_eq w, Nat.dvd_mul_left .., ?_⟩, fun _ _ => rfl, rfl, rfl, rfl, rfl, rfl⟩
  rw [stride_eq, Nat.add_sub_cancel_left]

/-- Settles O30. -/
theorem outputHasItsLength : Obligations.OutputHasItsLength := bmpBytes_length

/-- Settles O31. -/
theorem directByteIsOutputByte : Obligations.DirectByteIsOutputByte := fun _ _ fb _ hi => bmpBytes_getElem? fb hi

/-! ## The header bytes (R202-R209) -/

/-- Byte `k` of a little-endian field is the quotient by `256 ^ k`, modulo 256 (R202). -/
theorem le16Bytes_eq (v : Nat) : le16Bytes v = [BitVec.ofNat 8 (v / 256 ^ 0), BitVec.ofNat 8 (v / 256 ^ 1)] := by
  simp [le16Bytes, Nat.shiftRight_eq_div_pow]

theorem le32Bytes_eq (v : Nat) :
    le32Bytes v = [BitVec.ofNat 8 (v / 256 ^ 0), BitVec.ofNat 8 (v / 256 ^ 1), BitVec.ofNat 8 (v / 256 ^ 2),
      BitVec.ofNat 8 (v / 256 ^ 3)] := by
  simp [le32Bytes, Nat.shiftRight_eq_div_pow]

/-- The output begins with the header generator's bytes (R213). -/
theorem bmpBytes_take_header (w h : Nat) (fb : Nat → Pixel) : (bmpBytes w h fb).take 54 = bmpHeader w h :=
  List.take_left' (bmpHeader_length w h)

/-- Settles O32: the varying fields are written out, the others are constants. -/
theorem headerFields : Obligations.HeaderFields := by
  intro w h fb _ _ byte length
  have hbody : bodyLength w h = length - 54 := (Nat.add_sub_cancel_left ..).symm
  have hlength : outputLength w h = length := rfl
  rw [bmpBytes_take_header, bmpHeader, fileHeader, infoHeader, hlength, hbody, le32Bytes_eq length,
    le32Bytes_eq (length - 54), le16Bytes_eq w, le16Bytes_eq h]
  rfl

/-! ## The rows by place (R210-R212) -/

/-- Byte `o` of output row `k` is byte `o` of frame row `H - 1 - k`, padded (R210). -/
theorem bmpBytes_row_getElem? {w h k o : Nat} (fb : Nat → Pixel) (hk : k < h) (ho : o < stride w) :
    (bmpBytes w h fb)[54 + k * stride w + o]? = (paddedRow w fb (h - 1 - k))[o]? := by
  have hin : k * stride w + o < h * stride w :=
    calc k * stride w + o < (k + 1) * stride w := by rw [Nat.succ_mul]; omega
      _ ≤ h * stride w := Nat.mul_le_mul_right _ hk
  have hrow : (k * stride w + o) / stride w = k := by
    rw [Nat.mul_comm, Nat.mul_add_div (by omega), Nat.div_eq_of_lt ho, Nat.add_zero]
  have hplace : (k * stride w + o) % stride w = o := by rw [Nat.mul_comm, Nat.mul_add_mod, Nat.mod_eq_of_lt ho]
  rw [bmpBytes, List.getElem?_append_right (by simp; omega), bmpHeader_length, Nat.add_assoc, Nat.add_sub_cancel_left,
    getElem?_flatMap_range (paddedRow_length w fb <| h - 1 - ·) hin, hrow, hplace]

/-- Channel `c` of pixel `col` stands at `3 * col + c` of its row (R211). -/
theorem paddedRow_pixel (w : Nat) (fb : Nat → Pixel) (row : Nat) {col c : Nat} (hcol : col < w) (hc : c < 3) :
    (paddedRow w fb row)[3 * col + c]? = some (pixelChannel (fb (row * w + col)) c) := by
  rw [paddedRow_getElem? w fb row (by rw [stride_eq]; omega), if_pos (by omega), Nat.mul_add_div (by omega),
    Nat.div_eq_of_lt hc, Nat.add_zero, Nat.mul_add_mod, Nat.mod_eq_of_lt hc]

/-- The bytes of a row after its pixels are 0 (R212). -/
theorem paddedRow_padding (w : Nat) (fb : Nat → Pixel) (row : Nat) {p : Nat} (hp : p < w % 4) :
    (paddedRow w fb row)[3 * w + p]? = some 0 := by
  rw [paddedRow_getElem? w fb row (by rw [stride_eq]; omega), if_neg (by omega)]

/-- Settles O33. -/
theorem rowsBottomUpAndPadded : Obligations.RowsBottomUpAndPadded := by
  intro w h fb k hk start
  have hpixel {col c : Nat} (hcol : col < w) (hc : c < 3) :
      (bmpBytes w h fb)[start + (3 * col + c)]? = some (pixelChannel (fb ((h - 1 - k) * w + col)) c) :=
    (bmpBytes_row_getElem? fb hk (by rw [stride_eq]; omega)).trans (paddedRow_pixel w fb _ hcol hc)
  refine ⟨fun col hcol => ⟨hpixel hcol (c := 0) (by decide), hpixel hcol (c := 1) (by decide),
    hpixel hcol (c := 2) (by decide)⟩, fun p hp => ?_⟩
  rw [Nat.add_assoc]
  exact (bmpBytes_row_getElem? fb hk (by rw [stride_eq]; omega)).trans (paddedRow_padding w fb _ hp)

/-! ## The emit step (R214) -/

/-- Where the offered byte and its pixel exist, the sink's answer in EMIT is taken: a refusal raises IoError at OUT_POS, and
an accepted byte is handed over. -/
theorem step_of_answer {s : State} {a : SinkAnswer} {rest : List HostMove} (hp : s.phase = .emit)
    (hh : s.host = .answer a :: rest) (hlt : s.outPos.toNat < s.outLen.toNat)
    (hsource : sourceExists s.w.toNat s.h.toNat s.outPos.toNat s.fbCapacity = true) :
    a = .refuse ∧ step s = .next (raiseFault .ioError s.outPos (popHost s)) ∨
    a = .accept ∧ step s = .next (acceptByte (offeredByte s) (popHost s)) := by
  have hstep : step s = emitStep a (popHost s) := (step_of_move hh).trans (sinkAnswers_emit a (s := popHost s) hp)
  rw [hstep]
  rcases emitStep_cases a (popHost s) with ⟨hle, _⟩ | ⟨_, hnone, _⟩ | ⟨_, _, hanswer⟩
  · exact absurd hlt (not_lt.2 hle)
  · cases hsource.symm.trans hnone
  · exact hanswer

/-- Accepting a byte in EMIT ends the run exactly where it was the last one (R214). -/
theorem acceptByte_phase_of_emit {s : State} (b : Byte) (hp : s.phase = .emit) (hlt : s.outPos.toNat < s.outLen.toNat) :
    (acceptByte b s).phase = if s.outPos.toNat + 1 = s.outLen.toNat then .done else .emit := by
  have hlast : s.outPos + 1 = s.outLen ↔ s.outPos.toNat + 1 = s.outLen.toNat := by
    rw [← BitVec.toNat_inj, ← acceptByte_outPos b, acceptByte_outPos_toNat b hlt]
  rw [acceptByte_phase, hp]
  exact if_congr hlast rfl rfl

/-- Settles O34: a complete frame's OUT_LEN is the output's length, so that the offered byte exists and is byte OUT_POS of
the output. (`emitStep` is the model's.) -/
theorem emitStep_holds : Obligations.EmitStep := by
  intro s a rest hp hh hframe hlt hcap
  obtain ⟨_, hlen⟩ := hframe
  have hpos : s.outPos.toNat < outputLength s.w.toNat s.h.toNat := hlen ▸ hlt
  rcases step_of_answer hp hh hlt (sourceExists_of_lt hpos hcap) with ⟨rfl, he⟩ | ⟨rfl, he⟩
  · exact ⟨fun _ => he, nofun⟩
  · exact ⟨nofun, fun _ => ⟨offeredByte s, _, outputBytes_getElem? hpos, he, rfl, acceptByte_outPos_toNat _ hlt,
      acceptByte_phase_of_emit (s := popHost s) _ hp hlt⟩⟩

end Sys2Proof.Machine

/-! # Faults (spec/60_exceptions.md)

What enters FAULT, read off the events of a step (`step_event`): one of R230's causes, at its position of R235. -/

namespace Sys2Proof.Machine

/-- FAULT is entered by raising a fault for one of R230's causes, on the state with the host's move taken off. -/
theorem StepEvent.enters_fault {s t : State} (h : StepEvent s t) (hne : s.phase ≠ .fault) (hfault : t.phase = .fault) :
    ∃ code pos, FaultCause s code pos ∧ t = raiseFault code pos (popHost s) := by
  cases h with
  | fault code pos cause => exact ⟨code, pos, cause, rfl⟩
  | nothing | setMode | setLength | read | load => exact absurd hfault hne
  | opcode _ _ _ _ _ completed => exact absurd (completed.phase_eq.symm.trans hfault) hne
  | accepted =>
    have hchange := acceptByte_phase_of_change (s := popHost s) fun heq => hne (heq.trans hfault)
    cases hfault.symm.trans hchange
  | headerAccepted | frameEnd | start | reset => cases hfault

/-- Settles O35: a fault writes what `raiseFault` writes, and its cause gives its phase and its position. -/
theorem faultsArePrecise : Obligations.FaultsArePrecise := by
  intro s t h hne hfault
  obtain ⟨code, pos, cause, rfl⟩ := (step_event h).enters_fault hne hfault
  refine ⟨rfl, ?_⟩
  cases cause with
  | header _ _ phase mem => rcases mem with rfl | rfl <;> exact ⟨phase, rfl⟩
  | opcode _ _ phase unread mem =>
    simp only [opcodeFaults, List.mem_cons, List.not_mem_nil, or_false] at mem
    rcases mem with rfl | rfl | rfl | rfl <;> exact ⟨phase, unread, rfl⟩
  | inputEnd _ phase exhausted => exact ⟨phase, rfl, fun hle => BitVec.eq_of_toNat_eq (le_antisymm hle exhausted)⟩
  | refusal _ phase => exact ⟨phase, rfl⟩

end Sys2Proof.Machine

/-! # Reset, and the host loads that stop (spec/70_reset_and_hazards.md) -/

namespace Sys2Proof.Machine

/-! ## Reset (R260) -/

/-- A pixel-store entry at or above PIX_COUNT reads as a free value (R28, D34; log 2). -/
theorem fbRead_of_pixCount_le {s : State} {i : Nat} (h : s.pixCount.toNat ≤ i) :
    fbRead s i = Config.fbUnspecified s.fbEpoch i := by
  rw [fbRead, if_neg (Nat.not_lt.2 h)]

/-- Reset leaves no entry of the pixel store specified: PIX_COUNT is 0 (R40). -/
theorem fbRead_resetBlock (s : State) (i : Nat) :
    fbRead (resetBlock s) i = Config.fbUnspecified (s.fbEpoch + 1) i :=
  fbRead_of_pixCount_le (Nat.zero_le i)

/-- Settles O40: in every phase the step is `resetBlock`'s, whose fields R260 and R40 give. -/
theorem resetSetsEveryRegister : Obligations.ResetSetsEveryRegister := by
  intro s rest h
  have hstep : step s = .next (resetBlock (popHost s)) := step_of_move h
  have hhost : (resetBlock (popHost s)).host = rest := by simp [h]
  have hepoch : (resetBlock (popHost s)).fbEpoch ≠ s.fbEpoch := Nat.succ_ne_self s.fbEpoch
  exact ⟨_, hstep, rfl, rfl, rfl, rfl, rfl, rfl, rfl, rfl, rfl, rfl, rfl, rfl, fbRead_resetBlock (popHost s), hepoch,
    rfl, rfl, rfl, hhost⟩

/-! ## Host loads that stop (R270, R6) -/

/-- In a busy phase a load is refused, whatever its offset (R270; log 7). -/
theorem loadInput_of_busy (offset : Word) (b : Byte) {s : State} (hb : busy s.phase = true) :
    loadInput offset b s = .refused .inputLoadWhileBusy := by
  rcases loadInput_cases offset b s with ⟨_, he⟩ | ⟨hq, _⟩ | ⟨hq, _⟩
  · exact he
  all_goals rw [hq] at hb; cases hb

/-- In a quiescent phase a load past the input buffer's space faults (R6, D25; log 8). -/
theorem loadInput_past_space {offset : Word} (b : Byte) {s : State} (hq : busy s.phase = false)
    (hoff : Config.inputSpace ≤ offset.toNat) : loadInput offset b s = .fault .noInputOffset := by
  rcases loadInput_cases offset b s with ⟨hb, _⟩ | ⟨_, _, he⟩ | ⟨_, hin, _⟩
  · rw [hq] at hb
    cases hb
  · exact he
  · exact absurd hoff (Nat.not_le.2 hin)

/-- Settles O46: the move's load is refused or faults; the offset `2^32 - 1` is the first past the buffer's space. -/
theorem loadStops : Obligations.LoadStops := by
  intro s offset b rest h
  have hstep : step s = loadInput offset b (popHost s) := step_of_move h
  rw [hstep]
  exact ⟨fun hb => loadInput_of_busy (s := popHost s) offset b hb,
    fun hq hoff => loadInput_past_space (s := popHost s) b hq hoff.ge⟩

end Sys2Proof.Machine
